-- ==== Sys2Proof/Word.lean ====
section
/-! DEFINITION. The word types of the PX decompressor: bytes and nibbles (00_scope.md R8, R10). -/

namespace Sys2Proof

/-- An 8-bit byte, the one access width of both memory spaces (20_memory.md R60). -/
abbrev Byte := BitVec 8

/-- A 4-bit nibble (00_scope.md R10). -/
abbrev Nibble := BitVec 4

end Sys2Proof
end

