-- ==== Sys2Proof/Config.lean ====
section
/-! DEFINITION. The parameters of the hardware (00_scope.md R7): the fixed ones as constants, the open ones
(`NYB_OVF`, `IN_WINDOW`) as opaque constants, so that no proof can see a value for them. -/

namespace Sys2Proof

/-- An index of the control-flag table, 0 to 8 (`NCFT` = 9, 00_scope.md R7; a lookup can answer no other index,
40_dispatch_nybble_pattern.md R123). -/
abbrev PatternIndex := Fin 9

/-- The control-flag table `CFT[0..8]`: nine registers of 8 bits, any value in each (10_state.md R22). -/
abbrev FlagTable := Vector Byte 9

namespace Config

/-- `WINDOW`: the largest back-reference distance (00_scope.md R7). -/
def window : Nat := 4096

/-- `COPY_MIN`: the shortest copy (00_scope.md R7). -/
def copyMin : Nat := 3

/-- `COPY_MAX`: the longest copy (00_scope.md R7). -/
def copyMax : Nat := 18

/-- `NYB_OVF` (40_dispatch_nybble_pattern.md R124, OPEN, 92_eei_decisions.md D10): the byte pair a nybble-pattern
command gives for the eight operand pairs `(i, L)` whose nibbles leave 0..15; `none` is the instantiation `fault`,
in which the command raises `NybbleRange`. A free value: "a total function of the operands alone", nothing constrains
it. DESIGN CHOICE, log 6; safe: a claim holds for every instantiation. -/
opaque nybOvf : PatternIndex → Nibble → Option (Byte × Byte)

end Config

/-- The two admissible values of `IN_WINDOW` (43_host_frontend.md R199): where the front-end ends the input stream. -/
inductive InWindow where
  /-- the stream runs to the end of the bytes the host has -/
  | toEnd
  /-- the stream ends where the header says the container ends -/
  | toClen
deriving DecidableEq, Repr, Inhabited

namespace Config

/-- `IN_WINDOW` (43_host_frontend.md R199, OPEN, 92_eei_decisions.md D11). A free value, log 7; safe. -/
opaque inWindow : InWindow

end Config

end Sys2Proof
end

