-- ==== Sys2Proof/Syntax.lean ====
section
/-! DEFINITION. The twelve commands of the payload (30_encoding.md R90, one constructor per row of the opcode table),
and what selects among them: the engine's states and the three positions a byte can stand at (R95). -/

namespace Sys2Proof

/-- The commands, with the fields of their formats (30_encoding.md R91, R92, R93, R96). `h` is the high nibble of
the mode byte, `l` its low nibble, `o` the offset byte. -/
inductive Instr where
  /-- `CMD`, format C: the eight command bits `f0..f7`, `f0` the most significant (R91, R161) -/
  | cmd (c : Byte)
  /-- `LIT`, format L: the byte to append (R92, R167) -/
  | lit (d : Byte)
  /-- `NYB0`, format M (R93, R126) -/
  | nyb0 (h l : Nibble)
  /-- `NYB1`, format M (R93, R127) -/
  | nyb1 (h l : Nibble)
  /-- `NYB2`, format M (R93, R128) -/
  | nyb2 (h l : Nibble)
  /-- `NYB3`, format M (R93, R129) -/
  | nyb3 (h l : Nibble)
  /-- `NYB4`, format M (R93, R130) -/
  | nyb4 (h l : Nibble)
  /-- `NYB5`, format M (R93, R131) -/
  | nyb5 (h l : Nibble)
  /-- `NYB6`, format M (R93, R132) -/
  | nyb6 (h l : Nibble)
  /-- `NYB7`, format M (R93, R133) -/
  | nyb7 (h l : Nibble)
  /-- `NYB8`, format M (R93, R134) -/
  | nyb8 (h l : Nibble)
  /-- `COPY`, format X (R96, R140) -/
  | copy (h l : Nibble) (o : Byte)
deriving DecidableEq, Repr

/-- `ST`: the six states of the engine (10_state.md R31). -/
inductive EngineState where
  /-- reset state; no run started -/
  | idle
  /-- the next step fetches a command byte -/
  | readCommandByte
  /-- the next step executes the command selected by `msb(CMD, K)` -/
  | processBit
  /-- the output reached the declared length; the next step is the final check -/
  | done
  /-- terminal: the run succeeded -/
  | success
  /-- terminal: the run failed; `ERR` holds the cause -/
  | failed
deriving DecidableEq, Repr

/-- What a payload byte stands for, by its position alone (30_encoding.md R95): a command byte, a literal, or the
first byte of a mode-byte command. -/
inductive Slot where
  | command
  | literal
  | mode
deriving DecidableEq, Repr

end Sys2Proof
end

