-- ==== Sys2Proof/Machine/State.lean ====
section
/-! DEFINITION. The state of the machine (10_state.md R21), the fault codes (60_exceptions.md R211), the reasons a step
or a host operation stops, and the state after hardware reset (R38). Plain data throughout. -/

namespace Sys2Proof.Machine

/-- The contents of a byte space as address and byte pairs in one canonical form: addresses strictly rising, no entry
equal to what an unlisted address reads as (`Memory.wf`, `Memory.read` in Memory.lean). -/
abbrev Memory := List Host.Cell

/-- The fault codes of the `ERR` register (60_exceptions.md R211), in the order of their numbers 0 to 7. -/
inductive FaultCode where
  /-- no fault -/
  | none
  /-- a read at or past the end of the input stream (R212) -/
  | ioError
  /-- front-end only: the magic matches neither tag (R211) -/
  | invalidHeaderMagic
  /-- the final check failed (R213) -/
  | invalidDecompressedLength
  /-- reserved: the encoder's fault, never raised (R215) -/
  | fileToCompressTooLong
  /-- a copy reaches before the start of the output (R214) -/
  | backRefOutOfRange
  /-- reserved: unreachable, never raised (R215) -/
  | internalInvariant
  /-- a nibble left 0..15 and `NYB_OVF` answers a fault (R211) -/
  | nybbleRange
deriving DecidableEq, Repr

/-- Which of the twelve configuration registers the host has written since the last hardware reset
(70_reset_and_hazards.md R254; 10_state.md R38 "no value"). DEDUCED, log 3. -/
structure Written where
  cft : Vector Bool 9
  dlen : Bool
  clen : Bool
  hlen : Bool
deriving DecidableEq, Repr

/-- The state (10_state.md R21): the configuration, status and run registers and the output buffer; and the run's
parameters `IN` and `ILEN` (20_memory.md R65; log 4). -/
structure State where
  /-- `CFT[0..8]` (R22) -/
  cft : FlagTable
  /-- `DLEN` (R23) -/
  dlen : BitVec 32
  /-- `CLEN` (R24) -/
  clen : BitVec 16
  /-- `HLEN` (R25) -/
  hlen : BitVec 8
  /-- which configuration registers hold a written value (R38, 70_reset_and_hazards.md R254) -/
  written : Written
  /-- `ST` (R31) -/
  st : EngineState
  /-- `ERR` (R32) -/
  err : FaultCode
  /-- `IPOS`, a natural number: it does not wrap (R26; log 18) -/
  ipos : Nat
  /-- `OLEN` (R27) -/
  olen : BitVec 32
  /-- `CMD` (R28) -/
  cmd : Byte
  /-- `K` (R29) -/
  k : BitVec 3
  /-- `OUT`: addresses `0 .. OLEN-1` (R36, 20_memory.md R69) -/
  out : Memory
  /-- `IN`: addresses `0 .. ILEN-1` (20_memory.md R65) -/
  inp : Memory
  /-- `ILEN` (20_memory.md R65) -/
  ilen : Nat
deriving DecidableEq, Repr

/-- Why the machine stops with a fault. A fault of the engine is first taken as a next state (60_exceptions.md R216,
`State.raise`); these are the stops after it. -/
inductive Fault where
  /-- Raised by `step` in `Failed`: the run has failed with this code and the engine takes no further step
  (60_exceptions.md R219, R223). Safe. -/
  | runFailed (code : FaultCode)
  /-- Raised by a host read of an address of `OUT` outside `0 .. OLEN-1`, which does not exist (20_memory.md R68,
  10_state.md R36). Safe. -/
  | outAddress (a : Nat)
deriving DecidableEq, Repr

/-- Actions to which the model gives no meaning because the spec refuses them (60_exceptions.md R223). -/
inductive Refusal where
  /-- Raised by `exec` for a command that has no meaning yet. Safe. -/
  | notModelled (mnemonic : String)
  /-- Raised by `step` in `Idle` and `Success`: the engine takes no step there (42_decode_loop.md R160). Safe. -/
  | noEngineStep
  /-- Raised by every host operation but hardware reset while a run is in progress (70_reset_and_hazards.md R262). Safe. -/
  | hostDuringRun
  /-- Raised by START with a configuration register unwritten since reset (70_reset_and_hazards.md R254). Safe. -/
  | startUnwritten
  /-- Raised by a read of a configuration register unwritten since reset, through the register map: it holds no value, and
  a model must refuse the read (10_state.md R38). Safe. -/
  | readNoValue
  /-- Raised by a host read of a register that the host interface does not list for reading in this state
  (43_host_frontend.md R190). Safe. -/
  | notHostReadable
  /-- Raised by a host write to a read-only register, which the host interface does not list (43_host_frontend.md R190). Safe. -/
  | notHostWritable
  /-- Raised by a host read of `OUT` when `ST` is not `Success` (20_memory.md R76, 43_host_frontend.md R190). Safe. -/
  | noResult
deriving DecidableEq, Repr

/-- The state after hardware reset (10_state.md R38, 70_reset_and_hazards.md R250). The registers to which R38 gives no
value hold 0 (DESIGN CHOICE, unsafe, logs 1 and 2); no input stream is supplied yet (log 4). -/
def State.reset : State where
  cft := Vector.replicate 9 0
  dlen := 0
  clen := 0
  hlen := 0
  written := { cft := Vector.replicate 9 false, dlen := false, clen := false, hlen := false }
  st := .idle
  err := .none
  ipos := 0
  olen := 0
  cmd := 0
  k := 0
  out := []
  inp := []
  ilen := 0

end Sys2Proof.Machine
end

