-- ==== Sys2Proof/Machine/Flags.lean ====
section
/-! DEFINITION. The engine has no condition flags (10_state.md R34). This file holds what stands in their place: the
codes of the two status registers and the conditions that steer the engine. -/

namespace Sys2Proof.Machine

/-- The number of a fault code in `ERR` (60_exceptions.md R211). -/
def FaultCode.code : FaultCode → BitVec 3
  | .none => 0
  | .ioError => 1
  | .invalidHeaderMagic => 2
  | .invalidDecompressedLength => 3
  | .fileToCompressTooLong => 4
  | .backRefOutOfRange => 5
  | .internalInvariant => 6
  | .nybbleRange => 7

/-- The code of a state in `STATUS` (10_state.md R31). -/
def stateCode : EngineState → BitVec 3
  | .idle => 0
  | .readCommandByte => 1
  | .processBit => 2
  | .done => 3
  | .success => 4
  | .failed => 5

/-- The states in which the engine takes no step and the host may act: `Idle`, `Success`, `Failed`
(42_decode_loop.md R160, 43_host_frontend.md R190). -/
def atRest : EngineState → Bool
  | .idle => true
  | .readCommandByte => false
  | .processBit => false
  | .done => false
  | .success => true
  | .failed => true

/-- Every one of the twelve configuration registers has been written since reset (70_reset_and_hazards.md R254). -/
def Written.all (w : Written) : Bool := w.cft.toList.all id && w.dlen && w.clen && w.hlen

/-- The test of the length stop: `OLEN >= DLEN`, unsigned (42_decode_loop.md R163). -/
def State.lengthReached (s : State) : Bool := decide (s.dlen ≤ s.olen)

/-- The test of the final check: `CLEN = IPOS + HLEN`, exact (42_decode_loop.md R166). -/
def State.lengthAccounted (s : State) : Bool := decide (s.clen.toNat = s.ipos + s.hlen.toNat)

end Sys2Proof.Machine
end

