-- ==== Sys2Proof/Machine/Memory.lean ====
section
/-! DEFINITION. Byte spaces as canonical lists of address and byte pairs. Which addresses exist is not held here: it is
`OLEN` for `OUT` and `ILEN` for `IN` (10_state.md R36), and every access checks it first. -/

namespace Sys2Proof.Machine

/-- What an existing address with no entry reads as: the byte 0. Every address below `OLEN` and `ILEN` has been given a
byte (20_memory.md R65, R69), so this only says that a 0 is held without an entry. DESIGN CHOICE, log 5. -/
def unlisted : Byte := 0

/-- The byte at address `a`. -/
def Memory.read : Memory → Nat → Byte
  | [], _ => unlisted
  | (x, b) :: t, a => if x = a then b else Memory.read t a

/-- One entry in canonical form: none for the byte an unlisted address reads as. -/
def Memory.entry (a : Nat) (v : Byte) (t : Memory) : Memory :=
  if v = unlisted then t else (a, v) :: t

/-- Store `v` at address `a`, keeping the canonical form. -/
def Memory.write : Memory → Nat → Byte → Memory
  | [], a, v => Memory.entry a v []
  | (x, b) :: t, a, v =>
    if a < x then Memory.entry a v ((x, b) :: t)
    else if a = x then Memory.entry a v t
    else (x, b) :: Memory.write t a v

/-- The bytes `bs` at addresses `a, a+1, ...`. -/
def Memory.ofBytes : Nat → List Byte → Memory
  | _, [] => []
  | a, b :: bs => Memory.entry a b (Memory.ofBytes (a + 1) bs)

/-- The canonical form, for addresses from `lowest` on. -/
def Memory.wfFrom : Nat → Memory → Bool
  | _, [] => true
  | lowest, (a, b) :: t => decide (lowest ≤ a) && b != unlisted && Memory.wfFrom (a + 1) t

/-- The canonical form: addresses strictly rising, no entry equal to what an unlisted address reads as. -/
def Memory.wf (m : Memory) : Bool := Memory.wfFrom 0 m

/-- Every entry stands below address `n`. -/
def Memory.below (m : Memory) (n : Nat) : Bool := m.all fun c => decide (c.1 < n)

end Sys2Proof.Machine
end

