-- ==== Sys2Proof/Machine/Operands.lean ====
section
/-! DEFINITION. Bit fields and operands: nibbles and command bits of a byte (00_scope.md R9, R10), the control-flag
lookup (40_dispatch_nybble_pattern.md R120, R121), and the operands each format yields (30_encoding.md R98). -/

namespace Sys2Proof.Machine

/-- `hi(v) = v[7:4]`, the high nibble (00_scope.md R10). -/
def hi (v : Byte) : Nibble := v.extractLsb' 4 4

/-- `lo(v) = v[3:0]`, the low nibble (00_scope.md R10). -/
def lo (v : Byte) : Nibble := v.extractLsb' 0 4

/-- `{a, b}`: the byte `a*16 + b` (00_scope.md R10). -/
def joinNibbles (a b : Nibble) : Byte := a ++ b

/-- `msb(v, k) = v[7-k]`: bit `k` of a command byte counted from the most significant (00_scope.md R9). -/
def msb (v : Byte) (k : BitVec 3) : Bool := v.getLsbD (7 - k.toNat)

/-- The table indices in the order of the linear scan (40_dispatch_nybble_pattern.md R120). -/
def scanOrder : List PatternIndex := [0, 1, 2, 3, 4, 5, 6, 7, 8]

/-- `find(h)`: the first index whose 8-bit entry equals `h` zero-extended to 8 bits, `none` for `NotFound`
(40_dispatch_nybble_pattern.md R120, R121). -/
def find (cft : FlagTable) (h : Nibble) : Option PatternIndex :=
  scanOrder.find? fun i => cft[i] == h.setWidth 8

/-- Which slot the next payload byte stands in: the first two columns of `decode` in 30_encoding.md R95; `none` in the
states that read no payload byte (42_decode_loop.md R160). -/
def selectSlot (st : EngineState) (cmd : Byte) (k : BitVec 3) : Option Slot :=
  match st with
  | .readCommandByte => some .command
  | .processBit => if msb cmd k then some .literal else some .mode
  | .idle => none
  | .done => none
  | .success => none
  | .failed => none

/-- `LEN` = `h + 3`, 3 to 18 (30_encoding.md R98, 41_backref_copy.md R146). -/
def copyLength (h : Nibble) : Nat := h.toNat + Config.copyMin

/-- `off12` = `{l, o}`, the 12-bit offset field, its most significant part from the byte read first (30_encoding.md R98,
20_memory.md R62). -/
def off12 (l : Nibble) (o : Byte) : BitVec 12 := l ++ o

/-- `OFF` = `-4096 + l*256 + o`, an exact signed integer (41_backref_copy.md R141). -/
def copyOffset (l : Nibble) (o : Byte) : Int := (off12 l o).toNat - Config.window

/-- `dist` = `-OFF` = `4096 - off12`, 1 to 4096 (30_encoding.md R98). -/
def copyDistance (l : Nibble) (o : Byte) : Nat := Config.window - (off12 l o).toNat

end Sys2Proof.Machine
end

