-- ==== Sys2Proof/Machine/Pattern.lean ====
section
/-! DEFINITION. The nybble-pattern algorithm (40_dispatch_nybble_pattern.md R124, R125) and the three instantiations of
`NYB_OVF` that 93_implementation_defined.md U1 names. -/

namespace Sys2Proof.Machine

/-- The four nibbles `n0..n3` of a pair before range handling, as exact integers (R125, R137). -/
structure Quad where
  n0 : Int
  n1 : Int
  n2 : Int
  n3 : Int
deriving DecidableEq, Repr

/-- The base value `NB`: `nb_low`, incremented once for index 1, decremented once for index 5 (R125). -/
def baseValue (i : PatternIndex) (l : Nibble) : Int :=
  if i = 1 then l.toNat + 1 else if i = 5 then l.toNat - 1 else l.toNat

/-- Four copies of the base value, then the one per-position adjustment that the index selects (R125). -/
def nibbles (i : PatternIndex) (l : Nibble) : Quad :=
  let nb := baseValue i l
  match i with
  | 0 => ⟨nb, nb, nb, nb⟩
  | 1 => ⟨nb - 1, nb, nb, nb⟩
  | 2 => ⟨nb, nb - 1, nb, nb⟩
  | 3 => ⟨nb, nb, nb - 1, nb⟩
  | 4 => ⟨nb, nb, nb, nb - 1⟩
  | 5 => ⟨nb + 1, nb, nb, nb⟩
  | 6 => ⟨nb, nb + 1, nb, nb⟩
  | 7 => ⟨nb, nb, nb + 1, nb⟩
  | 8 => ⟨nb, nb, nb, nb + 1⟩

/-- Whether an exact nibble lies in 0..15. -/
def nibbleFits (n : Int) : Bool := decide (0 ≤ n) && decide (n ≤ 15)

/-- Whether every nibble of the four lies in 0..15 (the test of R125). -/
def Quad.fits (q : Quad) : Bool := nibbleFits q.n0 && nibbleFits q.n1 && nibbleFits q.n2 && nibbleFits q.n3

/-- The output pair `({N0, N1}, {N2, N3})`, each nibble as a 4-bit value (R125); for nibbles in 0..15 nothing is lost,
for others this is the reduction modulo 16. -/
def Quad.pair (q : Quad) : Byte × Byte :=
  (joinNibbles (BitVec.ofInt 4 q.n0) (BitVec.ofInt 4 q.n1), joinNibbles (BitVec.ofInt 4 q.n2) (BitVec.ofInt 4 q.n3))

/-- `pattern(i, L)` (R125): the output pair of a nybble-pattern command; `none` where the open parameter `NYB_OVF`
answers with the fault `NybbleRange` (R124). -/
def pattern (i : PatternIndex) (l : Nibble) : Option (Byte × Byte) :=
  if i = 0 then some (joinNibbles l l, joinNibbles l l)
  else if (nibbles i l).fits then some (nibbles i l).pair
  else Config.nybOvf i l

/-- The instantiation `mod16` of `NYB_OVF`, the spec's reference value (R124): every nibble modulo 16. -/
def nybMod16 (i : PatternIndex) (l : Nibble) : Option (Byte × Byte) := some (nibbles i l).pair

/-- One byte of the instantiation `u8_or`: 8-bit wrapping nibbles, `(a << 4) OR b` without masking (U1). -/
def orByte (a b : Int) : Byte := (BitVec.ofInt 8 a <<< 4) ||| BitVec.ofInt 8 b

/-- The instantiation `u8_or` of `NYB_OVF` (93_implementation_defined.md U1). -/
def nybU8Or (i : PatternIndex) (l : Nibble) : Option (Byte × Byte) :=
  some (orByte (nibbles i l).n0 (nibbles i l).n1, orByte (nibbles i l).n2 (nibbles i l).n3)

/-- The instantiation `fault` of `NYB_OVF` (93_implementation_defined.md U1): the command raises `NybbleRange`. -/
def nybFault (_i : PatternIndex) (_l : Nibble) : Option (Byte × Byte) := none

end Sys2Proof.Machine
end

