-- ==== Sys2Proof/Machine/Ops.lean ====
section
/-! DEFINITION. The named operations of the engine over its state: reads of `IN`, reads and appends of `OUT`, taking a
fault, the length stop, going on to the next command bit (00_scope.md R11). -/

namespace Sys2Proof.Machine

/-! ## State changes -/

/-- `IPOS <- IPOS + n`: `n` bytes of `IN` have been consumed (10_state.md R26). -/
def State.advance (n : Nat) (s : State) : State := { s with ipos := s.ipos + n }

/-- `goto S` (00_scope.md R11). -/
def State.goto (t : EngineState) (s : State) : State := { s with st := t }

/-- `raise F()`, taking a fault (60_exceptions.md R216): `ERR <- code`, `ST <- Failed`, nothing else changes. There is no
return from it (R219); START and hardware reset (HostOps.lean) are the only ways out of `Failed`. -/
def State.raise (f : FaultCode) (s : State) : State := { s with st := .failed, err := f }

/-- The command byte is latched and the first of its bits is next: `CMD <- c; K <- 0; goto ProcessBit`
(42_decode_loop.md R161). -/
def State.latch (c : Byte) (s : State) : State := { s with cmd := c, k := 0, st := .processBit }

/-- `MemWrite(OLEN, 1, b); OLEN <- OLEN + 1` (20_memory.md R69, 42_decode_loop.md R163). -/
def State.append (b : Byte) (s : State) : State :=
  { s with out := s.out.write s.olen.toNat b, olen := s.olen + 1 }

/-- Going on after a command that neither stopped the run nor failed (42_decode_loop.md R164). -/
def State.nextBit (s : State) : State :=
  if s.k < 7 then { s with k := s.k + 1 } else { s with st := .readCommandByte }

/-! ## Reads -/

/-- The byte of `IN` at address `a`, if the stream has one (20_memory.md R65, R66). -/
def State.inByte (a : Nat) (s : State) : Option Byte :=
  if a < s.ilen then some (s.inp.read a) else none

/-- `InRead()` (20_memory.md R66): the byte at `IPOS` and the state after the read; `none` at or past the end, where the
position is not advanced. -/
def State.inRead (s : State) : Option (Byte × State) :=
  match s.inByte s.ipos with
  | some b => some (b, s.advance 1)
  | none => none

/-- One `InRead()` of a command, then the rest of the command; a failing read raises `IOError` and ends the step
(20_memory.md R66, 60_exceptions.md R212). The byte read is the operand the decoder took from this address, so the rest
of the command does not take it again: DEDUCED, log 16. -/
def State.readThen (s : State) (rest : State → State) : State :=
  match s.inRead with
  | some (_, t) => rest t
  | none => s.raise .ioError

/-- `MemRead(a, 1)` of `OUT` at a signed address: defined for `0 <= a < OLEN` (20_memory.md R68). -/
def State.memRead (a : Int) (s : State) : Option Byte :=
  if 0 ≤ a ∧ a < s.olen.toNat then some (s.out.read a.toNat) else none

/-! ## Appending with the length stop -/

/-- Where a command stands after an append: it goes on, or the run left the command (`goto Done`, or a fault). -/
inductive Progress where
  /-- the command goes on -/
  | running (s : State)
  /-- the step has ended -/
  | ended (s : State)
deriving DecidableEq, Repr

/-- Go on with the next part of a command, unless the step has ended. -/
def Progress.andThen : Progress → (State → Progress) → Progress
  | .running s, f => f s
  | .ended s, _ => .ended s

/-- The end of a command: R164 if nothing ended the step before (42_decode_loop.md R164, R165). -/
def Progress.finish : Progress → State
  | .running s => s.nextBit
  | .ended s => s

/-- `Emit(b)` (42_decode_loop.md R163): append, then `goto Done` if `OLEN >= DLEN`. -/
def State.emit (b : Byte) (s : State) : Progress :=
  if (s.append b).lengthReached then .ended ((s.append b).goto .done) else .running (s.append b)

/-! ## The three bodies of item commands -/

/-- The common operation of `NYBi` (40_dispatch_nybble_pattern.md R136): read the mode byte, form the pair, append its
first byte and, unless that ended the run, its second. -/
def State.nybble (i : PatternIndex) (l : Nibble) (s : State) : State :=
  s.readThen fun t =>
    match pattern i l with
    | some (b0, b1) => ((t.emit b0).andThen (State.emit b1)).finish
    | none => t.raise .nybbleRange

/-- The copy loop (41_backref_copy.md R140, R143, R144): `n` iterations from source address `a`, each a range check
against the current `OLEN`, a read and an append. -/
def State.copyLoop : Nat → Int → State → Progress
  | 0, _, s => .running s
  | n + 1, a, s =>
    match s.memRead a with
    | some b => (s.emit b).andThen (State.copyLoop n (a + 1))
    | none => .ended (s.raise .backRefOutOfRange)

/-- `SRC` = `OLEN + OFF`, exact and signed, `OLEN` as it stands when the copy starts (41_backref_copy.md R142). -/
def State.copySource (l : Nibble) (o : Byte) (s : State) : Int := s.olen.toNat + copyOffset l o

/-! ## The final check -/

/-- The `Done` step (42_decode_loop.md R166): `Success` if the consumed length agrees with the container length, else the
fault `InvalidDecompressedLength`. -/
def State.finalCheck (s : State) : State :=
  if s.lengthAccounted then s.goto .success else s.raise .invalidDecompressedLength

end Sys2Proof.Machine
end

