-- ==== Sys2Proof/Machine/BackRef.lean ====
section
/-! DEFINITION. The back-reference copy `COPY` (41_backref_copy.md R140). -/

namespace Sys2Proof.Machine

/-- `COPY` (41_backref_copy.md R140): read the mode byte and the offset byte, then copy `LEN` bytes one by one from
`SRC`, which is formed before any byte of this copy is appended. -/
def execCopy (h l : Nibble) (o : Byte) (s : State) : Host.Outcome State Fault Refusal :=
  .next (s.readThen fun t => t.readThen fun u => (u.copyLoop (copyLength h) (u.copySource l o)).finish)

end Sys2Proof.Machine
end

