-- ==== Sys2Proof/Machine/DecodeLoop.lean ====
section
/-! DEFINITION. The commands of the decode loop: `CMD` and `LIT` (42_decode_loop.md R161, R167). -/

namespace Sys2Proof.Machine

/-- `CMD` (42_decode_loop.md R161): `CMD <- InRead(); K <- 0; goto ProcessBit`. -/
def execCmd (c : Byte) (s : State) : Host.Outcome State Fault Refusal :=
  .next (s.readThen (State.latch c))

/-- `LIT` (42_decode_loop.md R167): `LITB <- InRead(); Emit(LITB)`. -/
def execLit (d : Byte) (s : State) : Host.Outcome State Fault Refusal :=
  .next (s.readThen fun t => (t.emit d).finish)

end Sys2Proof.Machine
end

