-- ==== Sys2Proof/Machine/Nybble.lean ====
section
/-! DEFINITION. The nine nybble-pattern commands (40_dispatch_nybble_pattern.md R126 to R134) over their common operation
(R136). The high nibble only selects the command; it is no operand of the operation. -/

namespace Sys2Proof.Machine

/-- `NYB0` (R126): both bytes `{L, L}`. -/
def execNyb0 (_h l : Nibble) (s : State) : Host.Outcome State Fault Refusal := .next (s.nybble 0 l)

/-- `NYB1` (R127): nibbles `(L, L+1, L+1, L+1)`. -/
def execNyb1 (_h l : Nibble) (s : State) : Host.Outcome State Fault Refusal := .next (s.nybble 1 l)

/-- `NYB2` (R128): nibbles `(L, L-1, L, L)`. -/
def execNyb2 (_h l : Nibble) (s : State) : Host.Outcome State Fault Refusal := .next (s.nybble 2 l)

/-- `NYB3` (R129): nibbles `(L, L, L-1, L)`. -/
def execNyb3 (_h l : Nibble) (s : State) : Host.Outcome State Fault Refusal := .next (s.nybble 3 l)

/-- `NYB4` (R130): nibbles `(L, L, L, L-1)`. -/
def execNyb4 (_h l : Nibble) (s : State) : Host.Outcome State Fault Refusal := .next (s.nybble 4 l)

/-- `NYB5` (R131): nibbles `(L, L-1, L-1, L-1)`. -/
def execNyb5 (_h l : Nibble) (s : State) : Host.Outcome State Fault Refusal := .next (s.nybble 5 l)

/-- `NYB6` (R132): nibbles `(L, L+1, L, L)`. -/
def execNyb6 (_h l : Nibble) (s : State) : Host.Outcome State Fault Refusal := .next (s.nybble 6 l)

/-- `NYB7` (R133): nibbles `(L, L, L+1, L)`. -/
def execNyb7 (_h l : Nibble) (s : State) : Host.Outcome State Fault Refusal := .next (s.nybble 7 l)

/-- `NYB8` (R134): nibbles `(L, L, L, L+1)`. -/
def execNyb8 (_h l : Nibble) (s : State) : Host.Outcome State Fault Refusal := .next (s.nybble 8 l)

end Sys2Proof.Machine
end

