-- ==== Sys2Proof/Machine/Dispatch.lean ====
section
/-! DEFINITION. Every command to its meaning, one arm each. -/

namespace Sys2Proof.Machine

def exec (i : Instr) (s : State) : Host.Outcome State Fault Refusal :=
  match i with
  | .cmd c => Sys2Proof.Machine.execCmd c s
  | .lit d => Sys2Proof.Machine.execLit d s
  | .nyb0 h l => Sys2Proof.Machine.execNyb0 h l s
  | .nyb1 h l => Sys2Proof.Machine.execNyb1 h l s
  | .nyb2 h l => Sys2Proof.Machine.execNyb2 h l s
  | .nyb3 h l => Sys2Proof.Machine.execNyb3 h l s
  | .nyb4 h l => Sys2Proof.Machine.execNyb4 h l s
  | .nyb5 h l => Sys2Proof.Machine.execNyb5 h l s
  | .nyb6 h l => Sys2Proof.Machine.execNyb6 h l s
  | .nyb7 h l => Sys2Proof.Machine.execNyb7 h l s
  | .nyb8 h l => Sys2Proof.Machine.execNyb8 h l s
  | .copy h l o => Sys2Proof.Machine.execCopy h l o s

end Sys2Proof.Machine
end

