-- ==== Sys2Proof/WellFormed.lean ====
section
/-! DEFINITION. Which commands may stand at a position: 30_encoding.md R95 read as a check on an instruction. -/

namespace Sys2Proof

/-- The table index of a nybble-pattern command; `none` for `CMD`, `LIT` and `COPY` (40_dispatch_nybble_pattern.md
R122). -/
def Instr.patternIndex : Instr → Option PatternIndex
  | .cmd _ => none
  | .lit _ => none
  | .nyb0 _ _ => some 0
  | .nyb1 _ _ => some 1
  | .nyb2 _ _ => some 2
  | .nyb3 _ _ => some 3
  | .nyb4 _ _ => some 4
  | .nyb5 _ _ => some 5
  | .nyb6 _ _ => some 6
  | .nyb7 _ _ => some 7
  | .nyb8 _ _ => some 8
  | .copy _ _ _ => none

/-- The slot a command stands in (30_encoding.md R95). -/
def Instr.slot : Instr → Slot
  | .cmd _ => .command
  | .lit _ => .literal
  | .nyb0 _ _ => .mode
  | .nyb1 _ _ => .mode
  | .nyb2 _ _ => .mode
  | .nyb3 _ _ => .mode
  | .nyb4 _ _ => .mode
  | .nyb5 _ _ => .mode
  | .nyb6 _ _ => .mode
  | .nyb7 _ _ => .mode
  | .nyb8 _ _ => .mode
  | .copy _ _ _ => .mode

/-- The high nibble of a mode-byte command's first byte; `none` for `CMD` and `LIT` (30_encoding.md R93, R96). -/
def Instr.highNibble : Instr → Option Nibble
  | .cmd _ => none
  | .lit _ => none
  | .nyb0 h _ => some h
  | .nyb1 h _ => some h
  | .nyb2 h _ => some h
  | .nyb3 h _ => some h
  | .nyb4 h _ => some h
  | .nyb5 h _ => some h
  | .nyb6 h _ => some h
  | .nyb7 h _ => some h
  | .nyb8 h _ => some h
  | .copy h _ _ => some h

/-- The table check: the lookup of a mode-byte command's high nibble answers the command's own index, and `NotFound`
for `COPY` (30_encoding.md R93, R96). -/
def Instr.tableAgrees (cft : FlagTable) (i : Instr) : Bool :=
  match i.highNibble with
  | none => true
  | some h => Machine.find cft h == i.patternIndex

/-- Whether `i` may stand in slot `slot` under the table `cft` (30_encoding.md R95): the slot is the command's, and the
table selects it. -/
def Instr.wellFormed (slot : Slot) (cft : FlagTable) (i : Instr) : Bool :=
  i.slot == slot && i.tableAgrees cft

end Sys2Proof
end

