-- ==== Sys2Proof/Decode.lean ====
section
/-! DEFINITION. The decoder of 30_encoding.md R95, total on any bytes and rejecting by name (a missing byte only: it
"never rejects a byte"), the encoder written from the formats (R91, R92, R93, R96), and the reading of a bare word of
the opcode table. -/

namespace Sys2Proof

/-- Why no command was decoded: the stream has no byte where the decoder needs one (30_encoding.md R94, R99). -/
inductive DecodeError where
  /-- there is no first byte -/
  | noFirstByte
  /-- the mode byte selects `COPY` and there is no offset byte -/
  | noOffsetByte
deriving DecidableEq, Repr

/-- The nybble-pattern command of index `i` with the nibbles of its mode byte (40_dispatch_nybble_pattern.md R122). -/
def nybbleInstr (i : PatternIndex) (h l : Nibble) : Instr :=
  match i with
  | 0 => .nyb0 h l
  | 1 => .nyb1 h l
  | 2 => .nyb2 h l
  | 3 => .nyb3 h l
  | 4 => .nyb4 h l
  | 5 => .nyb5 h l
  | 6 => .nyb6 h l
  | 7 => .nyb7 h l
  | 8 => .nyb8 h l

/-- The mode-byte commands: `NYBi` where the lookup answers `i`, `COPY` with one more byte where it answers `NotFound`
(30_encoding.md R95, R94). -/
def decodeMode (cft : FlagTable) (b : Byte) (rest : List Byte) : Except DecodeError (Instr × List Byte) :=
  match Machine.find cft (Machine.hi b) with
  | some i => .ok (nybbleInstr i (Machine.hi b) (Machine.lo b), rest)
  | none =>
    match rest with
    | [] => .error .noOffsetByte
    | o :: rest' => .ok (.copy (Machine.hi b) (Machine.lo b) o, rest')

/-- The decoder (30_encoding.md R95): the command at the head of `bytes` and the bytes after it. -/
def decode (slot : Slot) (cft : FlagTable) (bytes : List Byte) : Except DecodeError (Instr × List Byte) :=
  match bytes with
  | [] => .error .noFirstByte
  | b :: rest =>
    match slot with
    | .command => .ok (.cmd b, rest)
    | .literal => .ok (.lit b, rest)
    | .mode => decodeMode cft b rest

/-- The bytes of a command, in address order (30_encoding.md R91, R92, R93, R96). -/
def encode : Instr → List Byte
  | .cmd c => [c]
  | .lit d => [d]
  | .nyb0 h l => [Machine.joinNibbles h l]
  | .nyb1 h l => [Machine.joinNibbles h l]
  | .nyb2 h l => [Machine.joinNibbles h l]
  | .nyb3 h l => [Machine.joinNibbles h l]
  | .nyb4 h l => [Machine.joinNibbles h l]
  | .nyb5 h l => [Machine.joinNibbles h l]
  | .nyb6 h l => [Machine.joinNibbles h l]
  | .nyb7 h l => [Machine.joinNibbles h l]
  | .nyb8 h l => [Machine.joinNibbles h l]
  | .copy h l o => [Machine.joinNibbles h l, o]

/-- The length of a command in bytes, 1 or 2 (30_encoding.md R94). -/
def Instr.length : Instr → Nat
  | .cmd _ => 1
  | .lit _ => 1
  | .nyb0 _ _ => 1
  | .nyb1 _ _ => 1
  | .nyb2 _ _ => 1
  | .nyb3 _ _ => 1
  | .nyb4 _ _ => 1
  | .nyb5 _ _ => 1
  | .nyb6 _ _ => 1
  | .nyb7 _ _ => 1
  | .nyb8 _ _ => 1
  | .copy _ _ _ => 2

/-- The bytes of a word of the opcode table. A row of 8 bits is one byte; a row of 16 bits (format X) is one 16-bit word
"first byte in the high half" (30_encoding.md R103). The bits the word does not give are 0, up to the longest command.
DEDUCED, log 25. -/
def tableBytes (nbits w : Nat) : List Byte :=
  if nbits ≤ 8 then [BitVec.ofNat 8 w, 0] else [BitVec.ofNat 8 (w / 256), BitVec.ofNat 8 w]

/-- The position under which a bare word of the opcode table is read. The table's rows have no fixed bits (30_encoding.md
R103), so a word alone does not say which command it is: this fixes one position for each word, such that every row has
words that are read as it. DESIGN CHOICE, log 14; safe: `step` never uses it. -/
def tableSlot (nbits w : Nat) : Slot :=
  if nbits ≤ 8 then
    (if w % 256 < 0x90 then .mode else if w % 256 < 0xC0 then .literal else .command)
  else .mode

/-- The control-flag table under which a bare word of the opcode table is read: for 8-bit words index `i` holds `i`, for
16-bit words no entry matches any nibble, so that the word is a `COPY`. DESIGN CHOICE, log 14. -/
def tableFlags (nbits : Nat) : FlagTable :=
  if nbits ≤ 8 then #v[0, 1, 2, 3, 4, 5, 6, 7, 8] else Vector.replicate 9 0xFF

/-- The command the decoder reads from a bare word of the opcode table, under the position and table that `tableSlot`
and `tableFlags` fix (log 14). -/
def decodeTableWord (nbits w : Nat) : Option Instr :=
  match decode (tableSlot nbits w) (tableFlags nbits) (tableBytes nbits w) with
  | .ok (i, _) => some i
  | .error _ => none

end Sys2Proof
end

