-- ==== Sys2Proof/Machine/Fetch.lean ====
section
/-! DEFINITION. Fetching a command from `IN`, the stop of an engine at rest, and placing a bare word of the opcode table
where the next fetch finds it. -/

namespace Sys2Proof.Machine

/-- The bytes of `IN` from address `a` on that the stream has, at most `n` of them (20_memory.md R65, R66). -/
def State.inBytes (s : State) : Nat → Nat → List Byte
  | _, 0 => []
  | a, n + 1 =>
    match s.inByte a with
    | some b => b :: State.inBytes s (a + 1) n
    | none => []

/-- The bytes at `IPOS`, as many as the longest command has (30_encoding.md R94). Looking at them reads nothing: only
the command's own `InRead()`s move `IPOS` or fail (70_reset_and_hazards.md R267). -/
def State.fetchBytes (s : State) : List Byte := s.inBytes s.ipos 2

/-- The state after a command whose bytes are not all there: the reads before the missing byte have advanced `IPOS`, the
missing one raises `IOError` (60_exceptions.md R212, R217; for `COPY` the mode byte was consumed). -/
def State.starved (e : DecodeError) (s : State) : State :=
  match e with
  | .noFirstByte => s.raise .ioError
  | .noOffsetByte => (s.advance 1).raise .ioError

/-- The command at `IPOS` in the given slot (30_encoding.md R95), or the state after `IOError` was raised because a byte
of it is missing. -/
def State.fetch (slot : Slot) (s : State) : Except State Instr :=
  match decode slot s.cft s.fetchBytes with
  | .ok (i, _) => .ok i
  | .error e => .error (s.starved e)

/-- The slot of the next payload byte, if the engine reads one next (30_encoding.md R95). -/
def State.slot (s : State) : Option Slot := selectSlot s.st s.cmd s.k

/-- The engine takes no step in `Idle` and `Success`; in `Failed` the run has ended with the fault in `ERR`
(42_decode_loop.md R160, 60_exceptions.md R219, R223). DEDUCED, log 9. -/
def State.rest (s : State) : Host.Outcome State Fault Refusal :=
  if s.st = .failed then .fault (.runFailed s.err) else .refused .noEngineStep

/-- Store bytes of `IN` at address `a` and on. -/
def Memory.writeBytes : Memory → Nat → List Byte → Memory
  | m, _, [] => m
  | m, a, b :: bs => Memory.writeBytes (m.write a b) (a + 1) bs

/-- The state and latch that make `slot` the slot of the next byte: the command byte's own state, or bit 0 of a command
byte of all ones (`LIT`) or all zeros (a mode byte) (30_encoding.md R95). -/
def State.placeSlot (slot : Slot) (s : State) : State :=
  match slot with
  | .command => { s with st := .readCommandByte }
  | .literal => { s with st := .processBit, cmd := 0xFF, k := 0 }
  | .mode => { s with st := .processBit, cmd := 0x00, k := 0 }

/-- All twelve configuration registers written. -/
def allWritten : Written := { cft := Vector.replicate 9 true, dlen := true, clen := true, hlen := true }

/-- The word of the opcode table stored at `IPOS` and everything set that makes the next fetch read it: the table
entries, the slot, the stream's bytes and their number, and the marks that the registers are written, which START needs
(70_reset_and_hazards.md R254). Logs 14 and 15. -/
def State.placeWord (nbits w : Nat) (s : State) : State :=
  { s.placeSlot (tableSlot nbits w) with
    cft := tableFlags nbits
    written := allWritten
    inp := s.inp.writeBytes s.ipos (tableBytes nbits w)
    ilen := max s.ilen (s.ipos + 2) }

end Sys2Proof.Machine
end

