-- ==== Sys2Proof/Machine/Step.lean ====
section
/-! DEFINITION. One step of the engine: one transition of the state machine (00_scope.md R12, 42_decode_loop.md R160). -/

namespace Sys2Proof.Machine

/-- One step of the engine (42_decode_loop.md R160): in `ReadCommandByte` and `ProcessBit` the command at `IPOS` is
fetched and run, in `Done` the final check is made, and in the other states the engine takes no step. -/
def step (s : State) : Host.Outcome State Fault Refusal :=
  match s.slot with
  | some slot =>
    match s.fetch slot with
    | .ok i => exec i s
    | .error t => .next t
  | none => if s.st = .done then .next s.finalCheck else s.rest

/-- `s` with a bare word of the opcode table where `step` fetches its next command (logs 14 and 15). -/
def State.withFetchWord (s : State) (nbits w : Nat) : State := s.placeWord nbits w

end Sys2Proof.Machine
end

