-- ==== Sys2Proof/Machine/Assembler.lean ====
section
/-! DEFINITION. The assembler syntax of the payload and its one pseudo-instruction (30_encoding.md R101, R102). -/

namespace Sys2Proof.Machine

/-- The lines of a payload in assembler syntax (30_encoding.md R101); `lit8` is the pseudo-instruction `LIT8` (R102). -/
inductive AsmItem where
  | cmd (f : Byte)
  | lit (d : Byte)
  | nyb (i : PatternIndex) (l : Nibble)
  | copy (len dist : Nat)
  | byte (b : Byte)
  | lit8 (ds : List Byte)
deriving DecidableEq, Repr

/-- `NYBi L` emits `{CFT[i], L}`; it needs `CFT[i] < 16` and `find(CFT[i]) = i` (30_encoding.md R101). -/
def asmNyb (cft : FlagTable) (i : PatternIndex) (l : Nibble) : Option (List Byte) :=
  if cft[i].toNat < 16 ∧ find cft (lo cft[i]) = some i then some (encode (nybbleInstr i (lo cft[i]) l)) else none

/-- `COPY len, dist` emits `{len-3, (4096-dist)[11:8]}` then `(4096-dist)[7:0]`; it needs `len` in 3..18, `dist` in
1..4096 and `find(len-3) = NotFound` (30_encoding.md R101). -/
def asmCopy (cft : FlagTable) (len dist : Nat) : Option (List Byte) :=
  if 3 ≤ len ∧ len ≤ 18 ∧ 1 ≤ dist ∧ dist ≤ 4096 ∧ find cft (BitVec.ofNat 4 (len - 3)) = none then
    some (encode (.copy (BitVec.ofNat 4 (len - 3)) (BitVec.ofNat 4 ((4096 - dist) / 256)) (BitVec.ofNat 8 (4096 - dist))))
  else none

/-- `LIT8 d0, ..., d(n-1)`, `1 <= n <= 8`: a command byte of all ones, then the literals (30_encoding.md R102). -/
def asmLit8 (ds : List Byte) : Option (List Byte) :=
  if 1 ≤ ds.length ∧ ds.length ≤ 8 then some (encode (.cmd 0xFF) ++ ds.flatMap (fun d => encode (.lit d))) else none

/-- The bytes a line emits under a table; `none` where its conditions fail (30_encoding.md R101). -/
def asmBytes (cft : FlagTable) : AsmItem → Option (List Byte)
  | .cmd f => some (encode (.cmd f))
  | .lit d => some (encode (.lit d))
  | .nyb i l => asmNyb cft i l
  | .copy len dist => asmCopy cft len dist
  | .byte b => some [b]
  | .lit8 ds => asmLit8 ds

/-- The bytes of a payload, line after line. -/
def assemble (cft : FlagTable) : List AsmItem → Option (List Byte)
  | [] => some []
  | item :: items =>
    match asmBytes cft item, assemble cft items with
    | some bs, some rest => some (bs ++ rest)
    | _, _ => none

/-- The eight command bits `f0..f7` of a command byte (30_encoding.md R91). -/
def commandBits (c : Byte) : List Bool := [msb c 0, msb c 1, msb c 2, msb c 3, msb c 4, msb c 5, msb c 6, msb c 7]

/-- Whether a line is a raw byte. -/
def AsmItem.isByte : AsmItem → Bool
  | .cmd _ => false
  | .lit _ => false
  | .nyb _ _ => false
  | .copy _ _ => false
  | .byte _ => true
  | .lit8 _ => false

/-- The command bit a line must stand under: 1 for `LIT`, 0 for `NYBi` and `COPY`; none for a line that is no single item
(30_encoding.md R101). -/
def AsmItem.itemBit : AsmItem → Option Bool
  | .cmd _ => none
  | .lit _ => some true
  | .nyb _ _ => some false
  | .copy _ _ => some false
  | .byte _ => none
  | .lit8 _ => none

/-- Whether the lines are placed as the assembler must place them: a `CMD` before the first item and after every eighth,
digits that agree with the items, raw bytes only at the end (30_encoding.md R101). `bits` are the command bits still to
be used. -/
def wellPlaced : List Bool → List AsmItem → Bool
  | _, [] => true
  | _, .byte _ :: items => items.all AsmItem.isByte
  | [], .cmd f :: items => wellPlaced (commandBits f) items
  | [], .lit8 ds :: items => wellPlaced ((commandBits 0xFF).drop ds.length) items
  | [], .lit _ :: _ => false
  | [], .nyb _ _ :: _ => false
  | [], .copy _ _ :: _ => false
  | b :: bits, .lit _ :: items => b && wellPlaced bits items
  | b :: bits, .nyb _ _ :: items => !b && wellPlaced bits items
  | b :: bits, .copy _ _ :: items => !b && wellPlaced bits items
  | _ :: _, .cmd _ :: _ => false
  | _ :: _, .lit8 _ :: _ => false

/-- A program: the directives `.cft`, `.dlen`, `.clen`, `.hlen` and the payload lines (30_encoding.md R101). -/
structure AsmProgram where
  cft : FlagTable
  dlen : Nat
  clen : Nat
  hlen : Nat
  items : List AsmItem
deriving DecidableEq, Repr

/-- The payload bytes of a program; `none` where a line's conditions or the placement of the lines fail. -/
def AsmProgram.payload (p : AsmProgram) : Option (List Byte) :=
  if wellPlaced [] p.items then assemble p.cft p.items else none

end Sys2Proof.Machine
end

