-- ==== Sys2Proof/Machine/HostOps.lean ====
section
/-! DEFINITION. The host: register map and access rights (10_state.md R33), register writes, supplying the input stream,
START, hardware reset, and the host's reads (43_host_frontend.md R190 to R192, 70_reset_and_hazards.md R250 to R257,
R262). Logs 10 and 11. -/

namespace Sys2Proof.Machine

/-- The control registers by name (10_state.md R33). -/
inductive CReg where
  /-- `CTRL`, CR0 -/
  | ctrl
  /-- `STATUS`, CR1 -/
  | status
  /-- `ERR`, CR2 -/
  | err
  /-- `DLEN`, CR3 -/
  | dlen
  /-- `CLEN`, CR4 -/
  | clen
  /-- `HLEN`, CR5 -/
  | hlen
  /-- `OLEN`, CR6 -/
  | olen
  /-- `IPOS`, CR7 -/
  | ipos
  /-- `CFT[i]`, CR8+i -/
  | cft (i : PatternIndex)
deriving DecidableEq, Repr

/-- The number of a control register (10_state.md R33). -/
def CReg.number : CReg → Nat
  | .ctrl => 0
  | .status => 1
  | .err => 2
  | .dlen => 3
  | .clen => 4
  | .hlen => 5
  | .olen => 6
  | .ipos => 7
  | .cft i => 8 + i

/-- The control register with a number, CR0 to CR16 (10_state.md R33). -/
def CReg.ofNumber (n : Nat) : Option CReg :=
  match n with
  | 0 => some .ctrl
  | 1 => some .status
  | 2 => some .err
  | 3 => some .dlen
  | 4 => some .clen
  | 5 => some .hlen
  | 6 => some .olen
  | 7 => some .ipos
  | i + 8 => if h : i < 9 then some (.cft ⟨i, h⟩) else none

/-! ## START and hardware reset -/

/-- The effect of START (70_reset_and_hazards.md R253): `OUT` empty, `OLEN`, `IPOS` and `ERR` zero,
`ST <- ReadCommandByte`; the configuration, `CMD` and `K` are not changed. -/
def State.start (s : State) : State :=
  { s with out := [], olen := 0, ipos := 0, err := .none, st := .readCommandByte }

/-- START (70_reset_and_hazards.md R253): in `Idle`, `Success` and `Failed` only (R262), and refused while a
configuration register holds no value (R254). -/
def hostStart (s : State) : Host.Outcome State Fault Refusal :=
  if !atRest s.st then .refused .hostDuringRun
  else if s.written.all then .next s.start
  else .refused .startUnwritten

/-- Hardware reset, in any state (70_reset_and_hazards.md R250): every piece of state to its reset value; the input
stream is no state of the hardware (10_state.md R38) and stays supplied (log 4). -/
def hardwareReset (s : State) : State := { State.reset with inp := s.inp, ilen := s.ilen }

/-! ## Register writes -/

/-- Store a value into `DLEN`, truncated to 32 bits (43_host_frontend.md R191). -/
def State.setDlen (v : Nat) (s : State) : State :=
  { s with dlen := BitVec.ofNat 32 v, written := { s.written with dlen := true } }

/-- Store a value into `CLEN`, truncated to 16 bits (43_host_frontend.md R191). -/
def State.setClen (v : Nat) (s : State) : State :=
  { s with clen := BitVec.ofNat 16 v, written := { s.written with clen := true } }

/-- Store a value into `HLEN`, truncated to 8 bits (43_host_frontend.md R191). -/
def State.setHlen (v : Nat) (s : State) : State :=
  { s with hlen := BitVec.ofNat 8 v, written := { s.written with hlen := true } }

/-- Store a value into `CFT[i]`, truncated to 8 bits (43_host_frontend.md R191). -/
def State.setCft (i : PatternIndex) (v : Nat) (s : State) : State :=
  { s with cft := s.cft.set i (BitVec.ofNat 8 v), written := { s.written with cft := s.written.cft.set i true } }

/-- A host write of `v` to a register in a state at rest: START through `CTRL` bit 0 (reserved bits are ignored), the
four configuration registers truncated to their widths, nothing else (10_state.md R33, 43_host_frontend.md R190, R191). -/
def writeAtRest (r : CReg) (v : Nat) (s : State) : Host.Outcome State Fault Refusal :=
  match r with
  | .ctrl => if v % 2 = 1 then hostStart s else .next s
  | .status => .refused .notHostWritable
  | .err => .refused .notHostWritable
  | .dlen => .next (s.setDlen v)
  | .clen => .next (s.setClen v)
  | .hlen => .next (s.setHlen v)
  | .olen => .refused .notHostWritable
  | .ipos => .refused .notHostWritable
  | .cft i => .next (s.setCft i v)

/-- A host write of `v` to a register: only in `Idle`, `Success` and `Failed` (70_reset_and_hazards.md R262). -/
def hostWrite (r : CReg) (v : Nat) (s : State) : Host.Outcome State Fault Refusal :=
  if atRest s.st then writeAtRest r v s else .refused .hostDuringRun

/-! ## The input stream -/

/-- The input of the next run: `IN` holds `bytes` from address 0 on and `ILEN` is their number (20_memory.md R65). A
stream that breaks at position `p` is the stream of its first `p` bytes (R79). -/
def State.supply (bytes : List Byte) (s : State) : State :=
  { s with inp := Memory.ofBytes 0 bytes, ilen := bytes.length }

/-- Supplying the input stream, only in `Idle`, `Success` and `Failed` (43_host_frontend.md R190). -/
def hostSupply (bytes : List Byte) (s : State) : Host.Outcome State Fault Refusal :=
  if atRest s.st then .next (s.supply bytes) else .refused .hostDuringRun

/-! ## Host steps -/

/-- The operations of the host that change the machine (43_host_frontend.md R190). START is the write of 1 to `CTRL`. -/
inductive HostOp where
  | write (r : CReg) (v : Nat)
  | supply (bytes : List Byte)
  | hardwareReset
deriving DecidableEq, Repr

/-- One host operation. -/
def hostStep (op : HostOp) (s : State) : Host.Outcome State Fault Refusal :=
  match op with
  | .write r v => hostWrite r v s
  | .supply bytes => hostSupply bytes s
  | .hardwareReset => .next (hardwareReset s)

/-- Host operations one after another, stopping at the first that is refused. -/
def hostSteps : List HostOp → State → Host.Outcome State Fault Refusal
  | [], s => .next s
  | op :: ops, s =>
    match hostStep op s with
    | .next t => hostSteps ops t
    | .fault r => .fault r
    | .refused r => .refused r

/-! ## Host reads

Two rules speak of host reads of registers, and differ: the access rights of the register map (10_state.md R33) and the
list of all the host can do (43_host_frontend.md R190). Each has its own operation; log 11. -/

/-- What a register reads as, reserved bits 0 (10_state.md R33); `CTRL` is write-only and reads 0. -/
def State.registerValue (r : CReg) (s : State) : BitVec 64 :=
  match r with
  | .ctrl => 0
  | .status => (stateCode s.st).setWidth 64
  | .err => s.err.code.setWidth 64
  | .dlen => s.dlen.setWidth 64
  | .clen => s.clen.setWidth 64
  | .hlen => s.hlen.setWidth 64
  | .olen => s.olen.setWidth 64
  | .ipos => BitVec.ofNat 64 s.ipos
  | .cft i => s.cft[i].setWidth 64

/-- Whether a register holds a value a rule may read: a configuration register only once it has been written since reset
(10_state.md R38). -/
def State.holdsValue (r : CReg) (s : State) : Bool :=
  match r with
  | .ctrl => true
  | .status => true
  | .err => true
  | .dlen => s.written.dlen
  | .clen => s.written.clen
  | .hlen => s.written.hlen
  | .olen => true
  | .ipos => true
  | .cft i => s.written.cft[i]

/-- The register map's answer to a read, by the access rights of 10_state.md R33, not while a run is in progress. A
register that holds no value is refused: "a model must fault or refuse a read of it, not pick zero" (10_state.md R38). -/
def readRegister (r : CReg) (s : State) : Host.Outcome (BitVec 64) Fault Refusal :=
  if !atRest s.st then .refused .hostDuringRun
  else if s.holdsValue r then .next (s.registerValue r)
  else .refused .readNoValue

/-- The registers the host's interface lists for reading in a state (43_host_frontend.md R190): `STATUS` and `ERR` at rest,
`OLEN` in `Success`; and after a failure `OLEN` and `IPOS`, which "stay readable after a failure as diagnostics"
(92_eei_decisions.md D4). -/
def hostMayRead (r : CReg) (st : EngineState) : Bool :=
  match r with
  | .ctrl => false
  | .status => atRest st
  | .err => atRest st
  | .dlen => false
  | .clen => false
  | .hlen => false
  | .olen => decide (st = .success) || decide (st = .failed)
  | .ipos => decide (st = .failed)
  | .cft _ => false

/-- A host read of a register: what 43_host_frontend.md R190 lists, and "what it does not list, the host cannot do". -/
def hostReadReg (r : CReg) (s : State) : Host.Outcome (BitVec 64) Fault Refusal :=
  if hostMayRead r s.st then readRegister r s
  else if atRest s.st then .refused .notHostReadable
  else .refused .hostDuringRun

/-- `OUT[0 .. OLEN)` in address order (43_host_frontend.md R192). -/
def State.outBytes (s : State) : List Byte := (List.range s.olen.toNat).map s.out.read

/-- A host read of one byte of `OUT`: in `Success` only, below `OLEN` (20_memory.md R76, 43_host_frontend.md R190). -/
def hostReadOut (a : Nat) (s : State) : Host.Outcome Byte Fault Refusal :=
  if s.st = .success then (if a < s.olen.toNat then .next (s.out.read a) else .fault (.outAddress a))
  else if atRest s.st then .refused .noResult
  else .refused .hostDuringRun

/-- The result of a run (43_host_frontend.md R192): all of `OUT[0 .. OLEN)`, in `Success` only. -/
def hostResult (s : State) : Host.Outcome (List Byte) Fault Refusal :=
  if s.st = .success then .next s.outBytes
  else if atRest s.st then .refused .noResult
  else .refused .hostDuringRun

end Sys2Proof.Machine
end

