-- ==== Sys2Proof/Machine/FrontEnd.lean ====
section
/-! DEFINITION. The container front-end (43_host_frontend.md R193 to R200): header, magic, loading the engine, running it
and giving back its result. -/

namespace Sys2Proof.Machine

/-- The tag "PKDPX" of Variant-A in ASCII (43_host_frontend.md R195). PRESUMED by the spec (GK1), log 22. -/
def magicA : List Byte := [0x50, 0x4B, 0x44, 0x50, 0x58]

/-- The tag "AT4PX" of Variant-B in ASCII (43_host_frontend.md R195). PRESUMED by the spec (GK1), log 22. -/
def magicB : List Byte := [0x41, 0x54, 0x34, 0x50, 0x58]

/-- The little-endian value of bytes in address order (20_memory.md R61). -/
def leValue : List Byte → Nat
  | [] => 0
  | b :: bs => b.toNat + 256 * leValue bs

/-- How `decompress` fails (60_exceptions.md R211): with a fault code, or with the magic, carrying the offending bytes.
A truncated header and a truncated payload give the same `IOError` (91_not_in_source.md NS16). -/
inductive FrontEndFault where
  | code (c : FaultCode)
  | invalidHeaderMagic (magic : List Byte)
deriving DecidableEq, Repr

/-- The engine's configuration as a header gives it (43_host_frontend.md R194). -/
structure Header where
  hlen : BitVec 8
  clen : BitVec 16
  cft : FlagTable
  dlen : BitVec 32
deriving DecidableEq, Repr

/-- The header length that a magic selects: 20 for Variant-A, 18 for Variant-B (43_host_frontend.md R195). -/
def headerLength (magic : List Byte) : Option Nat :=
  if magic = magicA then some 20 else if magic = magicB then some 18 else none

/-- `n` bytes of the container from offset `a`. -/
def field (F : List Byte) (a n : Nat) : List Byte := (F.drop a).take n

/-- The size of the field `decompressed_length`: 4 bytes in Variant-A, 2 in Variant-B (43_host_frontend.md R194). -/
def dlenSize (hlen : Nat) : Nat := if hlen = 20 then 4 else 2

/-- The header fields at their offsets (43_host_frontend.md R194, R196, R197). -/
def readHeader (F : List Byte) (hlen : Nat) : Header where
  hlen := BitVec.ofNat 8 hlen
  clen := BitVec.ofNat 16 (leValue (field F 5 2))
  cft := Vector.ofFn fun i : PatternIndex => F.getD (7 + i) 0
  dlen := BitVec.ofNat 32 (leValue (field F 16 (dlenSize hlen)))

/-- The magic of a container and the header length it selects (43_host_frontend.md R193, R195); with fewer than 5 bytes it
cannot be read, which is `IOError` (R198). -/
def parseMagic (F : List Byte) : Except FrontEndFault Nat :=
  if F.length < 5 then .error (.code .ioError)
  else
    match headerLength (F.take 5) with
    | none => .error (.invalidHeaderMagic (F.take 5))
    | some hlen => .ok hlen

/-- The header of a container (43_host_frontend.md R193): the magic first, then the other fields; too few bytes are
`IOError` (R198). -/
def parseHeader (F : List Byte) : Except FrontEndFault Header :=
  match parseMagic F with
  | .error e => .error e
  | .ok hlen => if F.length < hlen then .error (.code .ioError) else .ok (readHeader F hlen)

/-- `ILEN` as the front-end chooses it from the `n` bytes it has (43_host_frontend.md R199). -/
def windowLength (w : InWindow) (n clen hlen : Nat) : Nat :=
  match w with
  | .toEnd => n - hlen
  | .toClen => min n clen - hlen

/-- The input stream the front-end supplies (43_host_frontend.md R193, R199). -/
def payload (w : InWindow) (F : List Byte) (h : Header) : List Byte :=
  field F h.hlen.toNat (windowLength w F.length h.clen.toNat h.hlen.toNat)

/-- What the front-end does to the engine (43_host_frontend.md R193, 70_reset_and_hazards.md R255): the twelve
configuration registers, the stream, START. -/
def loadOps (h : Header) (bytes : List Byte) : List HostOp :=
  [.write .hlen h.hlen.toNat, .write .clen h.clen.toNat]
    ++ scanOrder.map (fun i => .write (.cft i) h.cft[i].toNat)
    ++ [.write .dlen h.dlen.toNat, .supply bytes, .write .ctrl 1]

/-- Steps of the engine until it is at rest, at most `n`. -/
def runToRest : Nat → State → State
  | 0, s => s
  | n + 1, s =>
    match step s with
    | .next t => runToRest n t
    | .fault _ => s
    | .refused _ => s

/-- The number of steps in which a run ends: command-bit steps, fetch steps, the final check (42_decode_loop.md R170). -/
def stepBound (dlen : BitVec 32) : Nat := max dlen.toNat 1 + (max dlen.toNat 1 + 7) / 8 + 1

/-- What the front-end gives back when the run has ended (43_host_frontend.md R193). -/
def answer (s : State) : Except FrontEndFault (List Byte) :=
  if s.st = .success then .ok s.outBytes else .error (.code s.err)

/-- What the front-end has done to the engine when it gives up on a header: `HLEN <- 20` or `HLEN <- 18` stands before the
test of the container's length, so a known magic has been followed by that register write (43_host_frontend.md R193,
00_scope.md R11); after an unknown or a missing magic nothing has been written. -/
def magicOps (F : List Byte) : List HostOp :=
  match parseMagic F with
  | .error _ => []
  | .ok hlen => [.write .hlen hlen]

/-- The front-end's result on the engine: the engine's state after it, and what it gives back. -/
abbrev Decompressed := State × Except FrontEndFault (List Byte)

/-- START has been performed; the engine runs until it is at rest and the front-end answers (43_host_frontend.md R193). -/
def runAndAnswer (t : State) : Decompressed :=
  (runToRest (stepBound t.dlen) t, answer (runToRest (stepBound t.dlen) t))

/-- Host operations of the front-end, then the rest of its work; an operation that is refused stops the front-end. -/
def afterOps (ops : List HostOp) (k : State → Decompressed) (s : State) : Host.Outcome Decompressed Fault Refusal :=
  match hostSteps ops s with
  | .next t => .next (k t)
  | .fault r => .fault r
  | .refused r => .refused r

/-- `decompress(container)` with a given `IN_WINDOW`, on an engine in state `s`: the engine's state after it, and the
answer. If the header is refused the engine is not started (43_host_frontend.md R193, R195). -/
def decompressWith (w : InWindow) (F : List Byte) (s : State) : Host.Outcome Decompressed Fault Refusal :=
  match parseHeader F with
  | .error e => afterOps (magicOps F) (fun t => (t, .error e)) s
  | .ok h => afterOps (loadOps h (payload w F h)) runAndAnswer s

/-- `decompress(container)` (43_host_frontend.md R193) with the open parameter `IN_WINDOW` (R199). -/
def decompress (F : List Byte) (s : State) : Host.Outcome Decompressed Fault Refusal :=
  decompressWith Config.inWindow F s

end Sys2Proof.Machine
end

