-- ==== Sys2Proof/Safety.lean ====
section
/-! DEFINITION. The terms in which claims about the machine are stated: the invariants of 10_state.md R37, what a command
appends in closed form (42_decode_loop.md R163, 41_backref_copy.md R148), the reference algorithm of 42_decode_loop.md
R172 over lists, and the encoder's output for the round trip of 43_host_frontend.md R201. -/

namespace Sys2Proof.Machine

/-! ## Invariants -/

/-- The engine is about to read a payload byte: `ReadCommandByte` or `ProcessBit`. -/
abbrev State.running (s : State) : Prop := s.st = .readCommandByte ∨ s.st = .processBit

/-- R37 (b): `OLEN < DLEN`, or `DLEN = 0` and `OLEN = 0`. -/
abbrev State.canAppend (s : State) : Prop := s.olen < s.dlen ∨ (s.dlen = 0 ∧ s.olen = 0)

/-- The memories are canonical and hold entries only at addresses that exist (10_state.md R36, R37 (f)). -/
structure State.MemoryInv (s : State) : Prop where
  outCanonical : s.out.wf = true
  outExtent : s.out.below s.olen.toNat = true
  inCanonical : s.inp.wf = true
  inExtent : s.inp.below s.ilen = true

/-- The codes a run of the engine can end with (60_exceptions.md R211, 93_implementation_defined.md U10). -/
abbrev FaultCode.ofEngine (f : FaultCode) : Prop :=
  f = .ioError ∨ f = .invalidDecompressedLength ∨ f = .backRefOutOfRange ∨ f = .nybbleRange

/-- `ERR` is 0 unless `ST = Failed`, and then it holds a fault of the engine (10_state.md R32). -/
structure State.StatusInv (s : State) : Prop where
  noError : s.st ≠ .failed → s.err = .none
  error : s.st = .failed → s.err.ofEngine

/-- 10_state.md R37, in every state reachable from START by steps of the engine; R37 (a), `K` in 0..7, is the type of
`K`. -/
structure State.RunInv (s : State) : Prop where
  canAppend : s.running → s.canAppend
  outputBound : s.olen.toNat ≤ max s.dlen.toNat 1
  complete : s.st = .done ∨ s.st = .success → s.olen.toNat = max s.dlen.toNat 1
  position : s.ipos ≤ s.ilen
  memory : s.MemoryInv
  status : s.StatusInv

/-- What holds in every state that steps of the engine and operations of the host can reach from hardware reset: the
host may rewrite `DLEN` or the stream after a run, so R37's bounds are claimed only while a run is in progress, and a run
is only ever started with every configuration register written (70_reset_and_hazards.md R254). -/
structure State.MachineInv (s : State) : Prop where
  run : atRest s.st = false → s.RunInv
  configured : s.st ≠ .idle → s.written.all = true
  memory : s.MemoryInv
  status : s.StatusInv

/-! ## What a command appends, in closed form -/

/-- How many of `m` bytes a command appends: `min(m, max(1, DLEN - OLEN))` (42_decode_loop.md R163). -/
def State.appendedCount (m : Nat) (s : State) : Nat := min m (max 1 (s.dlen.toNat - s.olen.toNat))

/-- All of `bs` appended, with no length stop. -/
def State.appendAll : State → List Byte → State
  | s, [] => s
  | s, b :: bs => State.appendAll (s.append b) bs

/-- The end of a command that has appended its bytes: `Done` if the declared length is reached, else R164
(42_decode_loop.md R163, R164, R165). -/
def State.settle (s : State) : State := if s.dlen ≤ s.olen then s.goto .done else s.nextBit

/-- The state after a command that would append `bs`: as many of them as R163 admits, then the end of the command. -/
def State.afterAppends (bs : List Byte) (s : State) : State :=
  (s.appendAll (bs.take (s.appendedCount bs.length))).settle

/-- The bytes a copy would append: the last `dist` bytes of the output repeated periodically (41_backref_copy.md R148). -/
def State.periodicBytes (len dist : Nat) (s : State) : List Byte :=
  (List.range len).map fun c => s.out.read (s.olen.toNat - dist + c % dist)

/-- The number of bytes a command may append: the bytes of `OUT` it stores to are that many from `OLEN` on
(20_memory.md R70). -/
def storeWidth : Instr → Nat
  | .cmd _ => 0
  | .lit _ => 1
  | .nyb0 _ _ => 2
  | .nyb1 _ _ => 2
  | .nyb2 _ _ => 2
  | .nyb3 _ _ => 2
  | .nyb4 _ _ => 2
  | .nyb5 _ _ => 2
  | .nyb6 _ _ => 2
  | .nyb7 _ _ => 2
  | .nyb8 _ _ => 2
  | .copy h _ _ => copyLength h

/-- Everything the host wrote or supplied is as before: configuration, marks, `IN`, `ILEN`. -/
abbrev State.sameConfig (s t : State) : Prop :=
  t.cft = s.cft ∧ t.dlen = s.dlen ∧ t.clen = s.clen ∧ t.hlen = s.hlen ∧ t.written = s.written ∧
    t.inp = s.inp ∧ t.ilen = s.ilen

/-- `s` with another input stream. -/
def State.withInput (inp : Memory) (ilen : Nat) (s : State) : State := { s with inp := inp, ilen := ilen }

/-- A next state changed by a function; other outcomes as they are. -/
def mapNext (f : State → State) : Host.Outcome State Fault Refusal → Host.Outcome State Fault Refusal
  | .next s => .next (f s)
  | .fault r => .fault r
  | .refused r => .refused r

/-! ## The run as a function (42_decode_loop.md R172), over lists -/

/-- The result of a run that has ended: `Ok(OUT[0..OLEN))` or `Err(code)` (42_decode_loop.md R172). -/
def runResult (s : State) : Except FaultCode (List Byte) :=
  if s.st = .success then .ok s.outBytes else .error s.err

/-- Append bytes one by one, stopping at the declared length; whether it stopped. -/
def refEmit (dlen : Nat) : List Byte → List Byte → List Byte × Bool
  | out, [] => (out, false)
  | out, b :: bs => if dlen ≤ out.length + 1 then (out ++ [b], true) else refEmit dlen (out ++ [b]) bs

/-- Copy `n` bytes one by one from index `a` of the growing output, stopping at the declared length. -/
def refCopy (dlen : Nat) : Nat → Nat → List Byte → List Byte × Bool
  | 0, _, out => (out, false)
  | n + 1, a, out =>
    if dlen ≤ out.length + 1 then (out ++ [out.getD a 0], true) else refCopy dlen n (a + 1) (out ++ [out.getD a 0])

/-- The loop of the reference algorithm: `bits` are the command bits still to be used, `inp` the bytes still to be read,
`out` the output so far; the output and the unread bytes at `Done`, or the fault. `fuel` bounds the number of commands. -/
def refLoop (cft : FlagTable) (dlen : Nat) : Nat → List Bool → List Byte → List Byte → Except FaultCode (List Byte × List Byte)
  | 0, _, _, _ => .error .ioError
  | _ + 1, _, [], _ => .error .ioError
  | n + 1, [], c :: inp, out => refLoop cft dlen n (commandBits c) inp out
  | n + 1, true :: bits, b :: inp, out =>
    match refEmit dlen out [b] with
    | (out', true) => .ok (out', inp)
    | (out', false) => refLoop cft dlen n bits inp out'
  | n + 1, false :: bits, mb :: inp, out =>
    match find cft (hi mb) with
    | some i =>
      match pattern i (lo mb) with
      | none => .error .nybbleRange
      | some (b0, b1) =>
        match refEmit dlen out [b0, b1] with
        | (out', true) => .ok (out', inp)
        | (out', false) => refLoop cft dlen n bits inp out'
    | none =>
      match inp with
      | [] => .error .ioError
      | ob :: inp' =>
        if out.length < copyDistance (lo mb) ob then .error .backRefOutOfRange
        else
          match refCopy dlen (copyLength (hi mb)) (out.length - copyDistance (lo mb) ob) out with
          | (out', true) => .ok (out', inp')
          | (out', false) => refLoop cft dlen n bits inp' out'

/-- The reference algorithm of 42_decode_loop.md R172. -/
def refRun (cft : FlagTable) (dlen clen hlen : Nat) (inp : List Byte) : Except FaultCode (List Byte) :=
  match refLoop cft dlen (inp.length + 1) [] inp [] with
  | .error e => .error e
  | .ok (out, rest) =>
    if clen = (inp.length - rest.length) + hlen then .ok out else .error .invalidDecompressedLength

/-! ## The naive encoder's output (43_host_frontend.md R206), no part of the hardware -/

/-- `n` bytes of a value, least significant first. -/
def leBytes : Nat → Nat → List Byte
  | 0, _ => []
  | n + 1, v => BitVec.ofNat 8 v :: leBytes n (v / 256)

/-- Literals with a command byte of all ones before the first and every eighth after it; `left` counts the literals the
last command byte still covers. -/
def naiveGroups : Nat → List Byte → List Byte
  | _, [] => []
  | 0, b :: bs => 0xFF :: b :: naiveGroups 7 bs
  | left + 1, b :: bs => b :: naiveGroups left bs

/-- Padding with 0xAA until the length is a multiple of 16. -/
def padTo16 (bs : List Byte) : List Byte := bs ++ List.replicate ((16 - bs.length % 16) % 16) 0xAA

/-- The header of the naive container: magic, container length before padding, an all-zero table, the true length. -/
def naiveHeader (m payloadLength : Nat) : List Byte :=
  magicA ++ leBytes 2 (20 + payloadLength) ++ List.replicate 9 0 ++ leBytes 4 m

/-- The container the naive encoder makes of `bytes` (43_host_frontend.md R206). -/
def compressNaive (bytes : List Byte) : List Byte :=
  padTo16 (naiveHeader bytes.length (naiveGroups 0 bytes).length ++ naiveGroups 0 bytes)

end Sys2Proof.Machine
end

