-- ==== Sys2Proof/Certificates/Slice0/Obligations.lean ====
section
/-! DEFINITION. The statements for the provers, from the numbered rules of the spec. Each docstring names its rules. -/

open Sys2Proof Sys2Proof.Machine

/-! ## Encoding and selection -/

/-- Decoding the bytes of a command that may stand at a position gives it back, whatever follows (30_encoding.md R91,
R92, R93, R95, R96). -/
def Obligations.DecodeOfEncode : Prop :=
  ∀ (slot : Slot) (cft : FlagTable) (i : Instr) (rest : List Byte),
    i.wellFormed slot cft = true → decode slot cft (encode i ++ rest) = .ok (i, rest)

/-- A decoded command may stand where it was decoded, and its encoding is the bytes the decoder took: no bit of them is
dropped (30_encoding.md R94, R95, R99). -/
def Obligations.EncodeOfDecode : Prop :=
  ∀ (slot : Slot) (cft : FlagTable) (bytes rest : List Byte) (i : Instr),
    decode slot cft bytes = .ok (i, rest) → i.wellFormed slot cft = true ∧ bytes = encode i ++ rest

/-- Every byte value is legal everywhere: the decoder fails only where a byte is missing, that is on no byte at all, or
on a lone mode byte whose high nibble is not in the table (30_encoding.md R94, R95, R99). -/
def Obligations.DecoderRejectsOnlyMissingBytes : Prop :=
  ∀ (slot : Slot) (cft : FlagTable) (bytes : List Byte) (e : DecodeError),
    decode slot cft bytes = .error e ↔
      (bytes = [] ∧ e = .noFirstByte) ∨
        (slot = .mode ∧ (∃ b, bytes = [b] ∧ find cft (hi b) = none) ∧ e = .noOffsetByte)

/-- The selection of 30_encoding.md R95: position first, then the command bit, then the table. -/
def Obligations.SelectionByPositionAndTable : Prop :=
  ∀ (cmd b o : Byte) (k : BitVec 3) (cft : FlagTable) (rest : List Byte),
    (selectSlot .readCommandByte cmd k = some .command ∧
      decode .command cft (b :: o :: rest) = .ok (.cmd b, o :: rest)) ∧
    (msb cmd k = true → selectSlot .processBit cmd k = some .literal) ∧
    decode .literal cft (b :: o :: rest) = .ok (.lit b, o :: rest) ∧
    (msb cmd k = false → selectSlot .processBit cmd k = some .mode) ∧
    (∀ i, find cft (hi b) = some i →
      ∃ j : Instr, decode .mode cft (b :: o :: rest) = .ok (j, o :: rest) ∧ j.patternIndex = some i) ∧
    (find cft (hi b) = none → decode .mode cft (b :: o :: rest) = .ok (.copy (hi b) (lo b) o, rest))

/-- Words of the spec's programs P2 and P3, under their table, and of P4, under its own, decode to the commands they stand
for (95_test_vectors.md section 5; a sanity statement). -/
def Obligations.SpecWordsDecode : Prop :=
  decode .command #v[1, 2, 3, 4, 5, 6, 7, 8, 9] [0b10000000] = .ok (.cmd 0x80, []) ∧
  decode .literal #v[1, 2, 3, 4, 5, 6, 7, 8, 9] [0b10101011] = .ok (.lit 0xAB, []) ∧
  decode .mode #v[1, 2, 3, 4, 5, 6, 7, 8, 9] [0b00010101] = .ok (.nyb0 1 5, []) ∧
  decode .mode #v[1, 2, 3, 4, 5, 6, 7, 8, 9] [0b10010101] = .ok (.nyb8 9 5, []) ∧
  decode .mode #v[1, 2, 3, 4, 5, 6, 7, 8, 9] [0b00001111, 0b11111111] = .ok (.copy 0 15 0xFF, []) ∧
  decode .mode #v[0x0F, 0x0E, 0x0F, 0x10, 0x00, 0x0D, 0x0C, 0x0B, 0x0A] [0b11110011] = .ok (.nyb0 15 3, []) ∧
  decode .mode #v[0x0F, 0x0E, 0x0F, 0x10, 0x00, 0x0D, 0x0C, 0x0B, 0x0A] [0b00000100] = .ok (.nyb4 0 4, []) ∧
  decode .mode #v[0x0F, 0x0E, 0x0F, 0x10, 0x00, 0x0D, 0x0C, 0x0B, 0x0A] [0b00011111, 0b11111100] =
    .ok (.copy 1 15 0xFC, [])

/-! ## The lookup -/

/-- `find(h)` is the smallest index whose entry equals `h`, or `NotFound` if none does (40_dispatch_nybble_pattern.md
R120). -/
def Obligations.LookupIsFirstMatch : Prop :=
  ∀ (cft : FlagTable) (h : Nibble),
    (∀ i : PatternIndex,
      find cft h = some i ↔ cft[i] = h.setWidth 8 ∧ ∀ j : PatternIndex, j < i → cft[j] ≠ h.setWidth 8) ∧
    (find cft h = none ↔ ∀ i : PatternIndex, cft[i] ≠ h.setWidth 8)

/-- An entry of 16 or more matches no nibble, behaves as if it were absent (any other such value in its place gives the
same lookups) and is not masked (40_dispatch_nybble_pattern.md R121). -/
def Obligations.LargeEntriesNeverMatch : Prop :=
  ∀ (cft : FlagTable) (i : PatternIndex) (h : Nibble),
    16 ≤ cft[i].toNat →
      find cft h ≠ some i ∧
      (∀ v : Byte, 16 ≤ v.toNat → find (cft.set i v) h = find cft h) ∧
      find cft h = scanOrder.find? (fun j => j != i && cft[j] == h.setWidth 8)

/-- At least 7 of the 16 high nibbles select `COPY` under every table (30_encoding.md R97). -/
def Obligations.SevenNibblesSelectCopy : Prop :=
  ∀ cft : FlagTable,
    7 ≤ ((List.range 16).filter fun n => find cft (BitVec.ofNat 4 n) == none).length

/-! ## Patterns -/

/-- The closed forms of the nine patterns where every nibble is in 0..15 (40_dispatch_nybble_pattern.md R135). -/
def Obligations.PatternClosedForms : Prop :=
  ∀ l : Nibble,
    pattern 0 l = some (joinNibbles l l, joinNibbles l l) ∧
    (l ≠ 15 → pattern 1 l = some (joinNibbles l (l + 1), joinNibbles (l + 1) (l + 1))) ∧
    (l ≠ 0 → pattern 2 l = some (joinNibbles l (l - 1), joinNibbles l l)) ∧
    (l ≠ 0 → pattern 3 l = some (joinNibbles l l, joinNibbles (l - 1) l)) ∧
    (l ≠ 0 → pattern 4 l = some (joinNibbles l l, joinNibbles l (l - 1))) ∧
    (l ≠ 0 → pattern 5 l = some (joinNibbles l (l - 1), joinNibbles (l - 1) (l - 1))) ∧
    (l ≠ 15 → pattern 6 l = some (joinNibbles l (l + 1), joinNibbles l l)) ∧
    (l ≠ 15 → pattern 7 l = some (joinNibbles l l, joinNibbles (l + 1) l)) ∧
    (l ≠ 15 → pattern 8 l = some (joinNibbles l l, joinNibbles l (l + 1)))

/-- Exactly eight operand pairs leave 0..15, and on those, and only those, the pattern is the open parameter's
(40_dispatch_nybble_pattern.md R124); on the others the instantiations `mod16` and `u8_or` of `NYB_OVF` give the pair of
the pattern (93_implementation_defined.md U1). -/
def Obligations.EightPairsAreOpen : Prop :=
  (∀ (i : PatternIndex) (l : Nibble),
    (nibbles i l).fits = false ↔
      (i, l) ∈ [((1 : PatternIndex), (15 : Nibble)), (2, 0), (3, 0), (4, 0), (5, 0), (6, 15), (7, 15), (8, 15)]) ∧
  (∀ (i : PatternIndex) (l : Nibble),
    pattern i l = if (nibbles i l).fits then some (nibbles i l).pair else Config.nybOvf i l) ∧
  (∀ (i : PatternIndex) (l : Nibble),
    (nibbles i l).fits = true → pattern i l = nybMod16 i l ∧ nybU8Or i l = nybMod16 i l)

/-! ## The shared operations -/

/-- `InRead()` (20_memory.md R66): a read at or past the end raises `IOError` and does not advance; any other answers
the byte at `IPOS` and adds exactly 1 to it. -/
def Obligations.InReadAdvancesOrFails : Prop :=
  ∀ (s : State) (f : State → State),
    (s.ilen ≤ s.ipos → s.inRead = none ∧ s.readThen f = { s with st := .failed, err := .ioError }) ∧
    (s.ipos < s.ilen →
      s.inRead = some (s.inp.read s.ipos, { s with ipos := s.ipos + 1 }) ∧
      s.readThen f = f { s with ipos := s.ipos + 1 })

/-- `Emit(b)` (42_decode_loop.md R163): write at `OLEN`, add 1 to `OLEN`, and `goto Done` exactly if then
`OLEN >= DLEN`. -/
def Obligations.EmitAppendsAndTestsLength : Prop :=
  ∀ (b : Byte) (s : State),
    s.emit b =
      if s.dlen ≤ s.olen + 1 then
        .ended { s with out := s.out.write s.olen.toNat b, olen := s.olen + 1, st := .done }
      else .running { s with out := s.out.write s.olen.toNat b, olen := s.olen + 1 }

/-- The byte appended reads back at the address it was appended to, every other address of `OUT` reads as before, and the
memories stay canonical (20_memory.md R68, R69). -/
def Obligations.AppendedByteReadsBack : Prop :=
  ∀ (b : Byte) (s : State), s.MemoryInv → s.canAppend →
    (s.append b).memRead s.olen.toNat = some b ∧
    (∀ a : Nat, a ≠ s.olen.toNat → (s.append b).out.read a = s.out.read a) ∧
    (s.append b).MemoryInv

/-- Fault entry (60_exceptions.md R216): `ERR` and `ST` are written, nothing else changes. -/
def Obligations.RaiseWritesErrAndSt : Prop :=
  ∀ (f : FaultCode) (s : State), s.raise f = { s with err := f, st := .failed }

/-- The operands of `COPY` (30_encoding.md R98, 41_backref_copy.md R141): `LEN` in 3..18; `OFF` exact, in -4096..-1, equal
to the 13-bit two's-complement value `{1, l, o}`; `dist = -OFF`. -/
def Obligations.CopyOperandsExact : Prop :=
  ∀ (h l : Nibble) (o : Byte),
    copyLength h = h.toNat + 3 ∧ copyLength h ≤ 18 ∧
    copyOffset l o = -4096 + l.toNat * 256 + o.toNat ∧ -4096 ≤ copyOffset l o ∧ copyOffset l o ≤ -1 ∧
    ((1 : BitVec 1) ++ l ++ o).toInt = copyOffset l o ∧
    (copyDistance l o : Int) = -copyOffset l o

/-- The slot a 4096-byte ring would be read at is the slot of the byte `dist` back (41_backref_copy.md R149). -/
def Obligations.RingSlotIsDistanceBack : Prop :=
  ∀ (l : Nibble) (o : Byte) (n : Nat), copyDistance l o ≤ n →
    (n + (off12 l o).toNat) % 4096 = (n - copyDistance l o) % 4096

/-! ## What each command does -/

/-- `CMD` (42_decode_loop.md R161): the byte is latched, `K` is 0, `ProcessBit` is next, `IPOS` advances by 1 and nothing
else changes. -/
def Obligations.CmdLatchesEightBits : Prop :=
  ∀ (c : Byte) (s : State), s.ipos < s.ilen →
    exec (.cmd c) s = .next { s with cmd := c, k := 0, st := .processBit, ipos := s.ipos + 1 }

/-- `LIT` (42_decode_loop.md R167, R163, R164): the byte is appended unchanged, `IPOS` and `OLEN` advance by 1, and the
run stops if the declared length is reached, else goes on to the next bit or the next command byte. -/
def Obligations.LitAppendsItsByte : Prop :=
  ∀ (d : Byte) (s : State), s.ipos < s.ilen →
    exec (.lit d) s = .next
      (if s.dlen ≤ s.olen + 1 then
        { s with ipos := s.ipos + 1, out := s.out.write s.olen.toNat d, olen := s.olen + 1, st := .done }
      else if s.k < 7 then
        { s with ipos := s.ipos + 1, out := s.out.write s.olen.toNat d, olen := s.olen + 1, k := s.k + 1 }
      else
        { s with ipos := s.ipos + 1, out := s.out.write s.olen.toNat d, olen := s.olen + 1, st := .readCommandByte })

/-- The nine nybble-pattern commands where every nibble is in 0..15 (40_dispatch_nybble_pattern.md R126 to R134, R136):
the two bytes of the closed form are appended, as many of them as the declared length admits. -/
def Obligations.NybbleCommandsAppendPairs : Prop :=
  ∀ (h l : Nibble) (s : State), s.ipos < s.ilen → s.canAppend →
    exec (.nyb0 h l) s = .next ((s.advance 1).afterAppends [joinNibbles l l, joinNibbles l l]) ∧
    (l ≠ 15 → exec (.nyb1 h l) s =
      .next ((s.advance 1).afterAppends [joinNibbles l (l + 1), joinNibbles (l + 1) (l + 1)])) ∧
    (l ≠ 0 → exec (.nyb2 h l) s = .next ((s.advance 1).afterAppends [joinNibbles l (l - 1), joinNibbles l l])) ∧
    (l ≠ 0 → exec (.nyb3 h l) s = .next ((s.advance 1).afterAppends [joinNibbles l l, joinNibbles (l - 1) l])) ∧
    (l ≠ 0 → exec (.nyb4 h l) s = .next ((s.advance 1).afterAppends [joinNibbles l l, joinNibbles l (l - 1)])) ∧
    (l ≠ 0 → exec (.nyb5 h l) s =
      .next ((s.advance 1).afterAppends [joinNibbles l (l - 1), joinNibbles (l - 1) (l - 1)])) ∧
    (l ≠ 15 → exec (.nyb6 h l) s = .next ((s.advance 1).afterAppends [joinNibbles l (l + 1), joinNibbles l l])) ∧
    (l ≠ 15 → exec (.nyb7 h l) s = .next ((s.advance 1).afterAppends [joinNibbles l l, joinNibbles (l + 1) l])) ∧
    (l ≠ 15 → exec (.nyb8 h l) s = .next ((s.advance 1).afterAppends [joinNibbles l l, joinNibbles l (l + 1)]))

/-- The eight open operand pairs run too (40_dispatch_nybble_pattern.md R124, R136): the pair is what `NYB_OVF` answers,
whatever that is, and where it answers a fault `NybbleRange` is raised after the mode byte was read and before anything is
appended. -/
def Obligations.NybbleOpenPairsFollowParameter : Prop :=
  ∀ (h : Nibble) (s : State), s.ipos < s.ilen → s.canAppend →
    ∀ c ∈ [(Instr.nyb1 h 15, (1 : PatternIndex), (15 : Nibble)), (.nyb2 h 0, 2, 0), (.nyb3 h 0, 3, 0),
        (.nyb4 h 0, 4, 0), (.nyb5 h 0, 5, 0), (.nyb6 h 15, 6, 15), (.nyb7 h 15, 7, 15), (.nyb8 h 15, 8, 15)],
      exec c.1 s =
        .next (match Config.nybOvf c.2.1 c.2.2 with
          | some b => (s.advance 1).afterAppends [b.1, b.2]
          | none => (s.advance 1).raise .nybbleRange)

/-- `COPY` in range (41_backref_copy.md R140, R142, R144, R145, R148): the last `dist` bytes of the output, repeated
periodically to the length of the copy, are appended, as many of them as the declared length admits. -/
def Obligations.CopyAppendsPeriodicBytes : Prop :=
  ∀ (h l : Nibble) (o : Byte) (s : State),
    s.ipos + 2 ≤ s.ilen → s.canAppend → s.out.wf = true → 4096 - (l.toNat * 256 + o.toNat) ≤ s.olen.toNat →
    exec (.copy h l o) s = .next
      ((s.advance 2).afterAppends (s.periodicBytes (h.toNat + 3) (4096 - (l.toNat * 256 + o.toNat))))

/-- `COPY` out of range (41_backref_copy.md R143, 60_exceptions.md R214, R217, R218): exactly when `OLEN < dist` on entry,
after both bytes were read and before anything is appended, whatever the declared length. -/
def Obligations.CopyBeforeStartRaises : Prop :=
  ∀ (h l : Nibble) (o : Byte) (s : State),
    s.ipos + 2 ≤ s.ilen → s.olen.toNat < 4096 - (l.toNat * 256 + o.toNat) →
    exec (.copy h l o) s = .next { s with ipos := s.ipos + 2, st := .failed, err := .backRefOutOfRange }

/-- A command whose first byte is missing raises `IOError` and changes nothing else; a `COPY` whose offset byte is missing
has consumed its mode byte (60_exceptions.md R212, R217, R218). -/
def Obligations.MissingBytesRaiseIOError : Prop :=
  (∀ (i : Instr) (s : State), s.ilen ≤ s.ipos → exec i s = .next { s with st := .failed, err := .ioError }) ∧
  (∀ (h l : Nibble) (o : Byte) (s : State), s.ilen = s.ipos + 1 →
    exec (.copy h l o) s = .next { s with ipos := s.ipos + 1, st := .failed, err := .ioError })

/-! ## What commands leave unchanged -/

/-- No command changes the configuration, the input stream or its length (10_state.md R22 to R25, 20_memory.md R65). -/
def Obligations.CommandsKeepConfiguration : Prop :=
  ∀ (i : Instr) (s t : State), exec i s = .next t → s.sameConfig t

/-- Frame of `OUT` for all twelve commands (20_memory.md R69, R70): every byte outside the command's store width from
`OLEN` on, the address `MemWrite` is called with, reads as before; `CMD` stores nothing. -/
def Obligations.CommandsStoreOnlyFromOlen : Prop :=
  ∀ (i : Instr) (s t : State), s.canAppend → exec i s = .next t →
    (∀ a : Nat, a < s.olen.toNat ∨ s.olen.toNat + storeWidth i ≤ a → t.out.read a = s.out.read a) ∧
    s.olen.toNat ≤ t.olen.toNat ∧ t.olen.toNat ≤ s.olen.toNat + storeWidth i

/-- Frame of the run registers for the eleven item commands (10_state.md R28, R29, R32): `CMD` is unchanged, `K` is
unchanged or moved to the next bit, `ERR` is unchanged unless the command failed. -/
def Obligations.ItemCommandsKeepLatch : Prop :=
  ∀ (i : Instr) (s t : State), (∀ c, i ≠ .cmd c) → exec i s = .next t →
    t.cmd = s.cmd ∧ (t.k = s.k ∨ (s.k < 7 ∧ t.k = s.k + 1 ∧ t.st = s.st)) ∧ (t.err = s.err ∨ t.st = .failed)

/-- `IPOS` moves only by the reads that succeed: by the command's length, or by the bytes the stream still has
(10_state.md R26, 30_encoding.md R94). -/
def Obligations.PositionMovesByReads : Prop :=
  ∀ (i : Instr) (s t : State), exec i s = .next t → t.ipos = s.ipos + min i.length (s.ilen - s.ipos)

/-- A command that fails appends nothing and keeps `CMD` and `K` (60_exceptions.md R216, R217). -/
def Obligations.FailingCommandAppendsNothing : Prop :=
  ∀ (i : Instr) (s t : State), s.canAppend → s.st ≠ .failed → exec i s = .next t → t.st = .failed →
    t.olen = s.olen ∧ t.out = s.out ∧ t.cmd = s.cmd ∧ t.k = s.k

/-- Which command can raise what (60_exceptions.md R220). -/
def Obligations.FaultsOfEachCommand : Prop :=
  ∀ (s t : State), s.st ≠ .failed → t.st = .failed →
    (∀ c, exec (.cmd c) s = .next t → t.err = .ioError) ∧
    (∀ d, exec (.lit d) s = .next t → t.err = .ioError) ∧
    (∀ h l, exec (.nyb0 h l) s = .next t → t.err = .ioError) ∧
    (∀ h l, ∀ i ∈ [Instr.nyb1 h l, .nyb2 h l, .nyb3 h l, .nyb4 h l, .nyb5 h l, .nyb6 h l, .nyb7 h l, .nyb8 h l],
      exec i s = .next t →
        t.err = .ioError ∨ (t.err = .nybbleRange ∧ l = (if i.patternIndex ∈ [some 1, some 6, some 7, some 8] then 15 else 0))) ∧
    (∀ h l o, exec (.copy h l o) s = .next t → t.err = .ioError ∨ t.err = .backRefOutOfRange) ∧
    (s.st = .done → step s = .next t → t.err = .invalidDecompressedLength)

/-- With `DLEN = 0` the first item of a run still runs: unless it fails it appends exactly one byte and goes to `Done` with
`OLEN = 1`. The source does not discuss `DLEN = 0`; 42_decode_loop.md R168 decides so (92_eei_decisions.md D19), and the
whole claim is log 17. -/
def Obligations.ZeroDeclaredLengthAppendsOne : Prop :=
  ∀ (i : Instr) (s t : State), s.dlen = 0 → s.olen = 0 → s.st = .processBit → (∀ c, i ≠ .cmd c) →
    exec i s = .next t → t.st ≠ .failed → t.st = .done ∧ t.olen = 1

/-! ## Steps of the engine -/

/-- A step runs the command at `IPOS`: where the bytes there are the encoding of a command that may stand there, the step
is that command's meaning, with nothing added (30_encoding.md R95, 42_decode_loop.md R160). -/
def Obligations.StepRunsEncodedCommand : Prop :=
  ∀ (s : State) (slot : Slot) (i : Instr),
    s.slot = some slot → i.wellFormed slot s.cft = true → s.inBytes s.ipos i.length = encode i → step s = exec i s

/-- A step whose command is not all there raises `IOError`, with `IPOS` at the end of the stream (60_exceptions.md
R212, R217). -/
def Obligations.StepOnMissingBytesRaisesIOError : Prop :=
  ∀ (s : State) (slot : Slot), s.slot = some slot →
    (s.ilen ≤ s.ipos → step s = .next { s with st := .failed, err := .ioError }) ∧
    (slot = .mode → s.ilen = s.ipos + 1 → find s.cft (hi (s.inp.read s.ipos)) = none →
      step s = .next { s with ipos := s.ipos + 1, st := .failed, err := .ioError })

/-- The `Done` step (42_decode_loop.md R166): `Success` exactly if `CLEN = IPOS + HLEN`, exact arithmetic, else
`InvalidDecompressedLength`; nothing else changes. -/
def Obligations.DoneStepChecksConsumedLength : Prop :=
  ∀ s : State, s.st = .done →
    step s = .next
      (if s.clen.toNat = s.ipos + s.hlen.toNat then { s with st := .success }
      else { s with st := .failed, err := .invalidDecompressedLength })

/-- The engine takes a step exactly in `ReadCommandByte`, `ProcessBit` and `Done` (42_decode_loop.md R160); that the
outcome in the other states is a refusal, and in `Failed` the fault with the code, is the model's choice (log 9). -/
def Obligations.EngineAtRestTakesNoStep : Prop :=
  ∀ s : State,
    ((∃ t, step s = .next t) ↔ atRest s.st = false) ∧
    (s.st = .idle ∨ s.st = .success → step s = .refused .noEngineStep) ∧
    (s.st = .failed → step s = .fault (.runFailed s.err))

/-- The transition relation of the engine (42_decode_loop.md R160). -/
def Obligations.TransitionsFollowTheTable : Prop :=
  ∀ s t : State, step s = .next t →
    (s.st = .readCommandByte →
      (s.ipos < s.ilen ∧ t.st = .processBit ∧ t.k = 0) ∨ (s.ilen ≤ s.ipos ∧ t.st = .failed ∧ t.err = .ioError)) ∧
    (s.st = .processBit →
      (t.st = .processBit ∧ s.k < 7 ∧ t.k = s.k + 1 ∧ t.olen < t.dlen) ∨
      (t.st = .readCommandByte ∧ s.k = 7 ∧ t.olen < t.dlen) ∨
      (t.st = .done ∧ t.dlen ≤ t.olen) ∨
      (t.st = .failed ∧ (t.err = .ioError ∨ t.err = .backRefOutOfRange ∨ t.err = .nybbleRange))) ∧
    (s.st = .done →
      (t.st = .success ∧ s.clen.toNat = s.ipos + s.hlen.toNat) ∨
      (t.st = .failed ∧ t.err = .invalidDecompressedLength ∧ s.clen.toNat ≠ s.ipos + s.hlen.toNat))

/-- A command depends on its own bytes of the stream only: two streams with the same bytes there give the same step, so
bytes after a command are never needed (70_reset_and_hazards.md R267, 42_decode_loop.md R165). -/
def Obligations.UnreadBytesDoNotMatter : Prop :=
  ∀ (s : State) (slot : Slot) (i : Instr) (m : Memory) (n : Nat),
    s.slot = some slot → i.wellFormed slot s.cft = true → s.inBytes s.ipos i.length = encode i →
    (s.withInput m n).inBytes s.ipos i.length = encode i →
    step (s.withInput m n) = mapNext (State.withInput m n) (step s)

/-- An item command depends on no command bit but its own (30_encoding.md R100): another latch with the same bit at `K`
gives the same step. -/
def Obligations.OtherCommandBitsDoNotMatter : Prop :=
  ∀ (s : State) (c : Byte), s.st = .processBit → msb c s.k = msb s.cmd s.k →
    step { s with cmd := c } = mapNext (fun t => { t with cmd := c }) (step s)

/-! ## Invariants -/

/-- Every step of the engine keeps 10_state.md R37 (with R32 and the canonical form of the memories). -/
def Obligations.StepKeepsRunInvariant : Prop :=
  ∀ s t : State, s.RunInv → step s = .next t → t.RunInv

/-- The run invariant and the machine invariant hold after hardware reset (10_state.md R38). -/
def Obligations.ResetMeetsInvariants : Prop := State.reset.RunInv ∧ State.reset.MachineInv

/-- START establishes the run invariant, whatever the state it is performed in (70_reset_and_hazards.md R253). -/
def Obligations.StartEstablishesRunInvariant : Prop :=
  ∀ s t : State, s.MemoryInv → hostWrite .ctrl 1 s = .next t → t.RunInv

/-- Every step of the engine keeps the machine invariant. -/
def Obligations.StepKeepsMachineInvariant : Prop :=
  ∀ s t : State, s.MachineInv → step s = .next t → t.MachineInv

/-- Every operation of the host keeps the machine invariant (43_host_frontend.md R190): in particular a run is only ever
started with every configuration register written (70_reset_and_hazards.md R254). -/
def Obligations.HostKeepsMachineInvariant : Prop :=
  ∀ (op : HostOp) (s t : State), s.MachineInv → hostStep op s = .next t → t.MachineInv

/-- Bytes once appended never change and the output never shrinks within a run (10_state.md R37 (f), 20_memory.md R69). -/
def Obligations.OutputIsAppendOnly : Prop :=
  ∀ s t : State, s.RunInv → step s = .next t →
    s.olen.toNat ≤ t.olen.toNat ∧ (∀ a : Nat, a < s.olen.toNat → t.memRead a = s.memRead a) ∧ s.ipos ≤ t.ipos

/-! ## Host -/

/-- Hardware reset, in any state (70_reset_and_hazards.md R250, 10_state.md R38): the values R38 states, and no
configuration register written. What the registers to which R38 gives no value hold is not claimed. -/
def Obligations.HardwareResetValues : Prop :=
  ∀ s : State, ∃ t, hostStep .hardwareReset s = .next t ∧
    t.st = .idle ∧ t.err = .none ∧ t.ipos = 0 ∧ t.olen = 0 ∧ t.out = [] ∧
    t.written.dlen = false ∧ t.written.clen = false ∧ t.written.hlen = false ∧
    (∀ i : PatternIndex, t.written.cft[i] = false) ∧ hostWrite .ctrl 1 t = .refused .startUnwritten

/-- START (70_reset_and_hazards.md R253): in a state at rest with every configuration register written it empties the
output, zeroes `OLEN`, `IPOS` and `ERR` and goes to `ReadCommandByte`; the configuration is not changed. That `CMD` and `K`
keep what they held is the model's choice (log 2; R38 gives them no value after START), and the marks of written registers
are the model's (log 3). -/
def Obligations.StartBeginsARun : Prop :=
  ∀ s : State, atRest s.st = true → s.written.all = true →
    hostWrite .ctrl 1 s =
      .next { s with out := [], olen := 0, ipos := 0, err := .none, st := .readCommandByte }

/-- START with an unwritten configuration register is refused (70_reset_and_hazards.md R254). -/
def Obligations.StartNeedsEveryRegister : Prop :=
  ∀ s : State, atRest s.st = true →
    (s.written.dlen = false ∨ s.written.clen = false ∨ s.written.hlen = false ∨ ∃ i : PatternIndex, s.written.cft[i] = false) →
    hostWrite .ctrl 1 s = .refused .startUnwritten

/-- A register write at rest stores the value truncated to the register's width, refuses no value and changes nothing else
(43_host_frontend.md R191) but the mark that the register is written (log 3); a write to `CTRL` with bit 0 clear does
nothing, and its other bits are ignored (10_state.md R33). That a write to a read-only register is a refusal is log 11, and
that every write during a run is one is log 13 (70_reset_and_hazards.md R262 gives the host no step then). -/
def Obligations.RegisterWritesTruncate : Prop :=
  ∀ (v : Nat) (s : State),
    (atRest s.st = true →
      hostWrite .dlen v s =
        .next { s with dlen := BitVec.ofNat 32 v, written := { s.written with dlen := true } } ∧
      hostWrite .clen v s =
        .next { s with clen := BitVec.ofNat 16 v, written := { s.written with clen := true } } ∧
      hostWrite .hlen v s =
        .next { s with hlen := BitVec.ofNat 8 v, written := { s.written with hlen := true } } ∧
      (∀ i : PatternIndex, ∃ t, hostWrite (.cft i) v s = .next t ∧ t.cft[i] = BitVec.ofNat 8 v ∧
        (∀ j : PatternIndex, j ≠ i → t.cft[j] = s.cft[j] ∧ t.written.cft[j] = s.written.cft[j]) ∧
        t.written.cft[i] = true ∧
        t = { s with cft := t.cft, written := { s.written with cft := t.written.cft } }) ∧
      (v % 2 = 0 → hostWrite .ctrl v s = .next s) ∧
      (v % 2 = 1 → hostWrite .ctrl v s = hostWrite .ctrl 1 s) ∧
      (∀ r ∈ [CReg.status, .err, .olen, .ipos], hostWrite r v s = .refused .notHostWritable)) ∧
    (atRest s.st = false → ∀ r : CReg, hostWrite r v s = .refused .hostDuringRun)

/-- Supplying the stream at rest (43_host_frontend.md R190, 20_memory.md R65): `IN` holds exactly the given bytes from
address 0 on, `ILEN` is their number, and nothing else changes. -/
def Obligations.SuppliedStreamReadsBack : Prop :=
  ∀ (bytes : List Byte) (s : State), atRest s.st = true →
    ∃ t, hostStep (.supply bytes) s = .next t ∧ t.ilen = bytes.length ∧
      (∀ a : Nat, a < bytes.length → t.inByte a = some (bytes.getD a 0)) ∧
      (∀ a : Nat, bytes.length ≤ a → t.inByte a = none) ∧
      t = { s with inp := t.inp, ilen := t.ilen }

/-- The host takes no step while a run is in progress, hardware reset excepted (70_reset_and_hazards.md R262, R250); that
its operations and reads are then refusals by name is log 13. -/
def Obligations.HostHeldOffDuringRun : Prop :=
  ∀ s : State, atRest s.st = false →
    (∀ op : HostOp, op ≠ .hardwareReset → hostStep op s = .refused .hostDuringRun) ∧
    (∃ t, hostStep .hardwareReset s = .next t) ∧
    (∀ r : CReg, readRegister r s = .refused .hostDuringRun) ∧
    (∀ r : CReg, hostReadReg r s = .refused .hostDuringRun) ∧
    (∀ a : Nat, hostReadOut a s = .refused .hostDuringRun) ∧ hostResult s = .refused .hostDuringRun

/-- The register map (10_state.md R33): the numbers of the registers; and at rest what each reads as: `CTRL` 0, `STATUS` and
`ERR` their codes (10_state.md R31, 60_exceptions.md R211), the others their contents, reserved bits 0; a configuration
register without a value is refused (10_state.md R38). The host's interface gives of these reads `STATUS` and `ERR` at
rest, `OLEN` in `Success` (43_host_frontend.md R190), and `OLEN` and `IPOS` after a failure (92_eei_decisions.md D4), and
no other; that the map and the interface are two operations is the model's choice (log 11). -/
def Obligations.RegisterMapReads : Prop :=
  (CReg.ofNumber 0 = some .ctrl ∧ CReg.ofNumber 1 = some .status ∧ CReg.ofNumber 2 = some .err ∧
    CReg.ofNumber 3 = some .dlen ∧ CReg.ofNumber 4 = some .clen ∧ CReg.ofNumber 5 = some .hlen ∧
    CReg.ofNumber 6 = some .olen ∧ CReg.ofNumber 7 = some .ipos ∧
    (∀ i : PatternIndex, CReg.ofNumber (8 + i) = some (.cft i)) ∧ (∀ n : Nat, 17 ≤ n → CReg.ofNumber n = none) ∧
    ∀ r : CReg, CReg.ofNumber r.number = some r) ∧
  ∀ s : State, atRest s.st = true →
    readRegister .ctrl s = .next 0 ∧
    readRegister .status s =
      .next (match s.st with | .idle => 0 | .readCommandByte => 1 | .processBit => 2 | .done => 3 | .success => 4 | .failed => 5) ∧
    readRegister .err s =
      .next (match s.err with
        | .none => 0 | .ioError => 1 | .invalidHeaderMagic => 2 | .invalidDecompressedLength => 3
        | .fileToCompressTooLong => 4 | .backRefOutOfRange => 5 | .internalInvariant => 6 | .nybbleRange => 7) ∧
    (∃ v : BitVec 64, readRegister .olen s = .next v ∧ v.toNat = s.olen.toNat) ∧
    (s.ipos < 2 ^ 64 → ∃ v : BitVec 64, readRegister .ipos s = .next v ∧ v.toNat = s.ipos) ∧
    (s.written.dlen = true → ∃ v : BitVec 64, readRegister .dlen s = .next v ∧ v.toNat = s.dlen.toNat) ∧
    (s.written.clen = true → ∃ v : BitVec 64, readRegister .clen s = .next v ∧ v.toNat = s.clen.toNat) ∧
    (s.written.hlen = true → ∃ v : BitVec 64, readRegister .hlen s = .next v ∧ v.toNat = s.hlen.toNat) ∧
    (∀ i : PatternIndex, s.written.cft[i] = true →
      ∃ v : BitVec 64, readRegister (.cft i) s = .next v ∧ v.toNat = s.cft[i].toNat) ∧
    (s.written.dlen = false → readRegister .dlen s = .refused .readNoValue) ∧
    (s.written.clen = false → readRegister .clen s = .refused .readNoValue) ∧
    (s.written.hlen = false → readRegister .hlen s = .refused .readNoValue) ∧
    (∀ i : PatternIndex, s.written.cft[i] = false → readRegister (.cft i) s = .refused .readNoValue) ∧
    hostReadReg .status s = readRegister .status s ∧ hostReadReg .err s = readRegister .err s ∧
    (s.st = .success ∨ s.st = .failed → hostReadReg .olen s = readRegister .olen s) ∧
    (s.st = .failed → hostReadReg .ipos s = readRegister .ipos s) ∧
    (s.st = .idle → hostReadReg .olen s = .refused .notHostReadable) ∧
    (s.st ≠ .failed → hostReadReg .ipos s = .refused .notHostReadable) ∧
    (∀ r ∈ [CReg.ctrl, .dlen, .clen, .hlen], hostReadReg r s = .refused .notHostReadable) ∧
    ∀ i : PatternIndex, hostReadReg (.cft i) s = .refused .notHostReadable

/-- The result of a run (43_host_frontend.md R192, 20_memory.md R68, R76): in `Success` the bytes `OUT[0 .. OLEN)`, one by
one and as a whole, each the byte the engine itself reads there, and an address at or above `OLEN` does not exist (that a
host read of it is a fault is log 11); in every other state at rest, after a failure as before the first run, no byte of
`OUT` can be read. -/
def Obligations.ResultReadableOnlyOnSuccess : Prop :=
  ∀ s : State,
    (s.st = .success →
      (∃ bytes : List Byte, hostResult s = .next bytes ∧ bytes.length = s.olen.toNat ∧
        ∀ a : Nat, a < s.olen.toNat →
          bytes.getD a 0 = s.out.read a ∧ s.memRead a = some (s.out.read a) ∧ hostReadOut a s = .next (s.out.read a)) ∧
      ∀ a : Nat, s.olen.toNat ≤ a → hostReadOut a s = .fault (.outAddress a)) ∧
    (atRest s.st = true → s.st ≠ .success →
      hostResult s = .refused .noResult ∧ ∀ a : Nat, hostReadOut a s = .refused .noResult)

/-! ## The front-end -/

/-- A container whose first 5 bytes are neither tag fails with `InvalidHeaderMagic` carrying those bytes, and the engine is
not started (43_host_frontend.md R195, R201 (b)). The tags' bytes are presumed by the spec (GK1; log 22); that the whole
state of the engine stays as it is, is read from the order of R193 (log 24). -/
def Obligations.UnknownMagicIsRefused : Prop :=
  ∀ (F : List Byte) (s : State), 5 ≤ F.length →
    F.take 5 ≠ [0x50, 0x4B, 0x44, 0x50, 0x58] → F.take 5 ≠ [0x41, 0x54, 0x34, 0x50, 0x58] →
    decompress F s = .next (s, .error (.invalidHeaderMagic (F.take 5)))

/-- A container too short for its header fails with `IOError` (43_host_frontend.md R198), the engine not started: with fewer
than 5 bytes, never `InvalidHeaderMagic`, nothing has been written; with a known magic `HLEN` has (R193 writes it before it
tests the length), and nothing else. That the rest of the engine's state stays as it is, is log 24; the tags' bytes are
log 22. -/
def Obligations.ShortContainersFailWithIOError : Prop :=
  ∀ (F : List Byte) (s : State),
    (F.length < 5 → decompress F s = .next (s, .error (.code .ioError))) ∧
    (atRest s.st = true → F.take 5 = [0x50, 0x4B, 0x44, 0x50, 0x58] → F.length < 20 →
      decompress F s =
        .next ({ s with hlen := 20, written := { s.written with hlen := true } }, .error (.code .ioError))) ∧
    (atRest s.st = true → F.take 5 = [0x41, 0x54, 0x34, 0x50, 0x58] → F.length < 18 →
      decompress F s =
        .next ({ s with hlen := 18, written := { s.written with hlen := true } }, .error (.code .ioError)))

/-- What the front-end loads (43_host_frontend.md R193, R194, R196, R197, R199): the two variants' header lengths and
fields, little-endian, the payload from the end of the header on, and a started run. The tags' bytes in the premises are
presumed by the spec (R195, GK1; log 22). -/
def Obligations.FrontEndLoadsHeader : Prop :=
  ∀ (w : InWindow) (F : List Byte) (s : State) (hl : Nat), atRest s.st = true →
    (F.take 5 = [0x50, 0x4B, 0x44, 0x50, 0x58] ∧ hl = 20) ∨ (F.take 5 = [0x41, 0x54, 0x34, 0x50, 0x58] ∧ hl = 18) →
    hl ≤ F.length →
    ∃ (h : Header) (t : State), parseHeader F = .ok h ∧ hostSteps (loadOps h (payload w F h)) s = .next t ∧
      t.st = .readCommandByte ∧ t.ipos = 0 ∧ t.olen = 0 ∧ t.hlen.toNat = hl ∧
      t.clen.toNat = (F.getD 5 0).toNat + 256 * (F.getD 6 0).toNat ∧
      (∀ i : PatternIndex, t.cft[i] = F.getD (7 + i) 0) ∧
      t.dlen.toNat = (F.getD 16 0).toNat + 256 * (F.getD 17 0).toNat +
        (if hl = 20 then 65536 * (F.getD 18 0).toNat + 16777216 * (F.getD 19 0).toNat else 0) ∧
      t.ilen = (match w with | .toEnd => F.length - hl | .toClen => min F.length t.clen.toNat - hl) ∧
      ∀ a : Nat, a < t.ilen → t.inp.read a = F.getD (hl + a) 0

/-- Round trip (43_host_frontend.md R201 (a), R206): for every non-empty byte sequence the encoder accepts, decompressing
its naive container gives it back, for either value of `IN_WINDOW`. The tag's bytes are log 22; every read of the stream is
answered (log 12). -/
def Obligations.NaiveContainerRoundTrips : Prop :=
  ∀ (w : InWindow) (bytes : List Byte) (s : State), atRest s.st = true → bytes ≠ [] →
    20 + bytes.length + (bytes.length + 7) / 8 ≤ 65535 →
    ∃ t, decompressWith w (compressNaive bytes) s = .next (t, .ok bytes)

/-! ## Runs -/

/-- Every run ends in `Success` or `Failed` within the number of steps of 42_decode_loop.md R170, provided the input stream
answers every read: the model has no stream that never answers (70_reset_and_hazards.md R268; log 12, unsafe if false). -/
def Obligations.RunsEndWithinTheStepBound : Prop :=
  ∀ s : State,
    (runToRest (stepBound s.dlen) s.start).st = .success ∨ (runToRest (stepBound s.dlen) s.start).st = .failed

/-- The run as a function (42_decode_loop.md R172): stepping the engine from START to its end gives the result of the
reference algorithm, for every configuration and every stream. Every read of the stream is answered (log 12). -/
def Obligations.RunComputesReferenceAlgorithm : Prop :=
  ∀ (s : State) (bytes : List Byte),
    runResult (runToRest (stepBound s.dlen) (s.supply bytes).start) =
      refRun s.cft s.dlen.toNat s.clen.toNat s.hlen.toNat bytes

/-- The final check is independent of the output (43_host_frontend.md R201 (c), 42_decode_loop.md R166): a run that
succeeds fails with `InvalidDecompressedLength` under every other container length. -/
def Obligations.WrongContainerLengthFails : Prop :=
  ∀ (s : State) (n : Nat) (c : BitVec 16), atRest s.st = false → c ≠ s.clen → (runToRest n s).st = .success →
    (runToRest n { s with clen := c }).st = .failed ∧
    (runToRest n { s with clen := c }).err = .invalidDecompressedLength

/-! ## Assembler -/

/-- The assembler's lines (30_encoding.md R101, R102). `NYBi L` emits bytes exactly where `CFT[i]` is a nibble whose lookup
answers `i`, `COPY len, dist` exactly for `len` in 3..18, `dist` in 1..4096 and `find(len-3) = NotFound`; the bytes decode,
where a mode byte stands, to the command of that index and low nibble, or of that length and distance. `CMD`, `LIT` and
`.byte` emit their byte, and `LIT8` of 1 to 8 literals what its expansion emits. -/
def Obligations.AssembledItemsDecode : Prop :=
  ∀ cft : FlagTable,
    (∀ (i : PatternIndex) (l : Nibble),
      (∀ h : Nibble, h.setWidth 8 = cft[i] → find cft h = some i →
        ∃ bytes, asmNyb cft i l = some bytes ∧
          ∀ rest, decode .mode cft (bytes ++ rest) = .ok (nybbleInstr i h l, rest)) ∧
      ((∀ h : Nibble, h.setWidth 8 = cft[i] → find cft h ≠ some i) → asmNyb cft i l = none)) ∧
    (∀ len dist : Nat,
      (3 ≤ len → len ≤ 18 → 1 ≤ dist → dist ≤ 4096 → find cft (BitVec.ofNat 4 (len - 3)) = none →
        ∃ (bytes : List Byte) (h l : Nibble) (o : Byte), asmCopy cft len dist = some bytes ∧
          (∀ rest, decode .mode cft (bytes ++ rest) = .ok (.copy h l o, rest)) ∧
          copyLength h = len ∧ copyDistance l o = dist) ∧
      (len < 3 ∨ 18 < len ∨ dist < 1 ∨ 4096 < dist ∨ find cft (BitVec.ofNat 4 (len - 3)) ≠ none →
        asmCopy cft len dist = none)) ∧
    (∀ b : Byte, asmBytes cft (.cmd b) = some [b] ∧ asmBytes cft (.lit b) = some [b] ∧ asmBytes cft (.byte b) = some [b]) ∧
    (∀ ds : List Byte,
      (1 ≤ ds.length → ds.length ≤ 8 →
        asmBytes cft (.lit8 ds) = assemble cft (.cmd 0xFF :: ds.map AsmItem.lit)) ∧
      (ds.length < 1 ∨ 8 < ds.length → asmBytes cft (.lit8 ds) = none))

/-- The assembler's placement check (30_encoding.md R101, R102). A payload may end after any line, and from a raw byte on it
is well placed exactly if only raw bytes follow (they are padding after the end). Otherwise it starts with a command byte or
a `LIT8`: the digits of a `CMD` agree with the up to eight items after it, 1 before each `LIT`, 0 before each `NYBi` or
`COPY`, digits beyond the last item being free; the next `CMD` or `LIT8` comes after the eighth item and not before; a
`LIT8` is placed as its expansion. -/
def Obligations.PlacementFollowsCommandBits : Prop :=
  (∀ bits : List Bool, wellPlaced bits [] = true) ∧
  (∀ (bits : List Bool) (b : Byte) (items : List AsmItem),
    wellPlaced bits (.byte b :: items) = items.all AsmItem.isByte) ∧
  (∀ (f : Byte) (items rest : List AsmItem),
    (∀ x ∈ items, x.itemBit ≠ none) → items.length ≤ 8 → (items.length = 8 ∨ rest.all AsmItem.isByte = true) →
    (wellPlaced [] (.cmd f :: (items ++ rest)) = true ↔
      (∀ k : BitVec 3, k.toNat < items.length → items[k.toNat]?.bind AsmItem.itemBit = some (msb f k)) ∧
        wellPlaced [] rest = true)) ∧
  (∀ (f : Byte) (items rest : List AsmItem) (y : AsmItem),
    (∀ x ∈ items, x.itemBit ≠ none) → items.length < 8 → y.itemBit = none → y.isByte = false →
    wellPlaced [] (.cmd f :: (items ++ y :: rest)) = false) ∧
  (∀ (ds : List Byte) (rest : List AsmItem), 1 ≤ ds.length → ds.length ≤ 8 →
    wellPlaced [] (.lit8 ds :: rest) = wellPlaced [] (.cmd 0xFF :: (ds.map AsmItem.lit ++ rest))) ∧
  (∀ (x : AsmItem) (rest : List AsmItem), x.itemBit ≠ none → wellPlaced [] (x :: rest) = false)
end

