-- ==== Sys2Proof/Laws/Memory.lean ====
section
/-! SUPPORT. The laws of byte spaces: a read after a write, and the canonical form kept by every operation. -/

namespace Sys2Proof.Machine

/-! ## Reading -/

@[simp] theorem Memory.read_nil (a : Nat) : Memory.read [] a = unlisted := rfl

theorem Memory.read_cons (x : Nat) (b : Byte) (t : Memory) (a : Nat) :
    Memory.read ((x, b) :: t) a = if x = a then b else Memory.read t a := rfl

/-- An address below every entry reads as the unlisted byte. -/
theorem Memory.read_of_wfFrom {lowest : Nat} {m : Memory} (h : Memory.wfFrom lowest m = true) {a : Nat}
    (ha : a < lowest) : m.read a = unlisted := by
  induction m generalizing lowest with
  | nil => rfl
  | cons c t ih =>
    obtain ⟨x, b⟩ := c
    simp only [Memory.wfFrom, Bool.and_eq_true, decide_eq_true_eq] at h
    rw [Memory.read_cons, if_neg (by omega)]
    exact ih h.2 (by omega)

/-- An address at or above the extent reads as the unlisted byte. -/
theorem Memory.read_of_below {m : Memory} {n a : Nat} (h : m.below n = true) (ha : n ≤ a) : m.read a = unlisted := by
  induction m with
  | nil => rfl
  | cons c t ih =>
    obtain ⟨x, b⟩ := c
    simp only [Memory.below, List.all_cons, Bool.and_eq_true, decide_eq_true_eq] at h
    rw [Memory.read_cons, if_neg (by omega)]
    exact ih h.2

theorem Memory.read_entry_same (a : Nat) (v : Byte) (t : Memory) (h : t.read a = unlisted) :
    (Memory.entry a v t).read a = v := by
  unfold Memory.entry
  split
  · simp_all
  · simp [Memory.read_cons]

theorem Memory.read_entry_other {a x : Nat} (hx : x ≠ a) (v : Byte) (t : Memory) :
    (Memory.entry a v t).read x = t.read x := by
  unfold Memory.entry
  split
  · rfl
  · rw [Memory.read_cons, if_neg (Ne.symm hx)]

/-- A write leaves every other address alone. -/
theorem Memory.read_write_other (m : Memory) {a x : Nat} (hx : x ≠ a) (v : Byte) :
    (m.write a v).read x = m.read x := by
  induction m with
  | nil => exact Memory.read_entry_other hx v []
  | cons c t ih =>
    obtain ⟨y, b⟩ := c
    simp only [Memory.write]
    split
    · exact Memory.read_entry_other hx v _
    · split
      · rw [Memory.read_entry_other hx, Memory.read_cons, if_neg (by omega)]
      · simp only [Memory.read_cons, ih]

theorem Memory.read_write_same_from {lowest : Nat} {m : Memory} (h : Memory.wfFrom lowest m = true) (a : Nat)
    (v : Byte) : (m.write a v).read a = v := by
  induction m generalizing lowest with
  | nil => exact Memory.read_entry_same a v [] rfl
  | cons c t ih =>
    obtain ⟨y, b⟩ := c
    have h' := h
    simp only [Memory.wfFrom, Bool.and_eq_true, decide_eq_true_eq] at h'
    simp only [Memory.write]
    split
    · refine Memory.read_entry_same a v _ ?_
      rw [Memory.read_cons, if_neg (by omega)]
      exact Memory.read_of_wfFrom h'.2 (by omega)
    · split
      · exact Memory.read_entry_same a v t (Memory.read_of_wfFrom h'.2 (by omega))
      · rw [Memory.read_cons, if_neg (by omega)]
        exact ih h'.2

/-- A read after a write to the same address of a canonical memory gives the byte written. -/
theorem Memory.read_write_same {m : Memory} (h : m.wf = true) (a : Nat) (v : Byte) : (m.write a v).read a = v :=
  Memory.read_write_same_from h a v

/-! ## The canonical form -/

theorem Memory.wfFrom_mono {lo lo' : Nat} (hl : lo ≤ lo') {m : Memory} (h : Memory.wfFrom lo' m = true) :
    Memory.wfFrom lo m = true := by
  cases m with
  | nil => rfl
  | cons c t =>
    obtain ⟨x, b⟩ := c
    simp only [Memory.wfFrom, Bool.and_eq_true, decide_eq_true_eq] at h ⊢
    exact ⟨⟨by omega, h.1.2⟩, h.2⟩

theorem Memory.wfFrom_entry {lo a : Nat} (hl : lo ≤ a) (v : Byte) {t : Memory} (h : Memory.wfFrom (a + 1) t = true) :
    Memory.wfFrom lo (Memory.entry a v t) = true := by
  unfold Memory.entry
  split
  · exact Memory.wfFrom_mono (by omega) h
  · simp_all [Memory.wfFrom]

theorem Memory.wfFrom_write {lo a : Nat} (hl : lo ≤ a) (v : Byte) {m : Memory} (h : Memory.wfFrom lo m = true) :
    Memory.wfFrom lo (m.write a v) = true := by
  induction m generalizing lo with
  | nil => exact Memory.wfFrom_entry hl v rfl
  | cons c t ih =>
    obtain ⟨y, b⟩ := c
    have h' := h
    simp only [Memory.wfFrom, Bool.and_eq_true, decide_eq_true_eq] at h'
    simp only [Memory.write]
    split
    · refine Memory.wfFrom_entry hl v ?_
      simp only [Memory.wfFrom, Bool.and_eq_true, decide_eq_true_eq]
      exact ⟨⟨by omega, h'.1.2⟩, h'.2⟩
    · split
      · exact Memory.wfFrom_entry hl v (Memory.wfFrom_mono (by omega) h'.2)
      · simp only [Memory.wfFrom, Bool.and_eq_true, decide_eq_true_eq]
        exact ⟨h'.1, ih (by omega) h'.2⟩

/-- A write keeps the canonical form. -/
theorem Memory.wf_write (a : Nat) (v : Byte) {m : Memory} (h : m.wf = true) : (m.write a v).wf = true :=
  Memory.wfFrom_write (Nat.zero_le a) v h

/-- The empty memory, and so both memories at reset, are canonical. -/
@[simp] theorem Memory.wf_nil : Memory.wf [] = true := rfl

theorem Memory.wfFrom_ofBytes (a : Nat) (bs : List Byte) : Memory.wfFrom a (Memory.ofBytes a bs) = true := by
  induction bs generalizing a with
  | nil => rfl
  | cons b bs ih => exact Memory.wfFrom_entry (Nat.le_refl a) b (ih (a + 1))

/-- A supplied stream is held in canonical form. -/
theorem Memory.wf_ofBytes (a : Nat) (bs : List Byte) : (Memory.ofBytes a bs).wf = true :=
  Memory.wfFrom_mono (Nat.zero_le a) (Memory.wfFrom_ofBytes a bs)

/-- Storing bytes one after another keeps the canonical form. -/
theorem Memory.wf_writeBytes {m : Memory} (h : m.wf = true) (a : Nat) (bs : List Byte) :
    (m.writeBytes a bs).wf = true := by
  induction bs generalizing m a with
  | nil => exact h
  | cons b bs ih => exact ih (Memory.wf_write a b h) (a + 1)

/-! ## The extent -/

@[simp] theorem Memory.below_nil (n : Nat) : Memory.below [] n = true := rfl

theorem Memory.below_mono {m : Memory} {n n' : Nat} (hn : n ≤ n') (h : m.below n = true) : m.below n' = true := by
  simp only [Memory.below, List.all_eq_true, decide_eq_true_eq] at h ⊢
  exact fun c hc => lt_of_lt_of_le (h c hc) hn

theorem Memory.below_entry {a n : Nat} (ha : a < n) (v : Byte) {t : Memory} (h : t.below n = true) :
    (Memory.entry a v t).below n = true := by
  unfold Memory.entry
  split
  · exact h
  · simp only [Memory.below, List.all_cons, Bool.and_eq_true, decide_eq_true_eq]
    exact ⟨ha, h⟩

theorem Memory.below_write {m : Memory} {a n : Nat} (ha : a < n) (v : Byte) (h : m.below n = true) :
    (m.write a v).below n = true := by
  induction m with
  | nil => exact Memory.below_entry ha v rfl
  | cons c t ih =>
    obtain ⟨y, b⟩ := c
    have h' := h
    simp only [Memory.below, List.all_cons, Bool.and_eq_true, decide_eq_true_eq] at h'
    simp only [Memory.write]
    split
    · exact Memory.below_entry ha v h
    · split
      · exact Memory.below_entry ha v h'.2
      · simp only [Memory.below, List.all_cons, Bool.and_eq_true, decide_eq_true_eq]
        exact ⟨h'.1, ih h'.2⟩

theorem Memory.below_ofBytes (a : Nat) (bs : List Byte) : (Memory.ofBytes a bs).below (a + bs.length) = true := by
  induction bs generalizing a with
  | nil => rfl
  | cons b bs ih =>
    refine Memory.below_entry (by simp) b ?_
    have := ih (a + 1)
    rwa [List.length_cons, ← Nat.add_assoc, Nat.add_right_comm]

/-- The bytes of a supplied stream read back. -/
theorem Memory.read_ofBytes (a x : Nat) (bs : List Byte) :
    (Memory.ofBytes a bs).read x = if a ≤ x then bs.getD (x - a) unlisted else unlisted := by
  induction bs generalizing a with
  | nil => simp [Memory.ofBytes]
  | cons b bs ih =>
    rw [Memory.ofBytes]
    by_cases hx : x = a
    · subst hx
      rw [Memory.read_entry_same]
      · simp
      · exact Memory.read_of_wfFrom (Memory.wfFrom_ofBytes (x + 1) bs) (Nat.lt_succ_self x)
    · rw [Memory.read_entry_other hx, ih]
      by_cases h : a + 1 ≤ x
      · rw [if_pos h, if_pos (by omega), show x - a = (x - (a + 1)) + 1 by omega, List.getD_cons_succ]
      · rw [if_neg h, if_neg (by omega)]

end Sys2Proof.Machine
end

