-- ==== Sys2Proof/Laws/Operands.lean ====
section
/-! SUPPORT. The laws of bit fields, the lookup, the operands of `COPY`, the decoder and the patterns. -/

namespace Sys2Proof.Machine

/-! ## Nibbles -/

@[simp] theorem hi_joinNibbles (a b : Nibble) : hi (joinNibbles a b) = a := by
  revert a b; decide

@[simp] theorem lo_joinNibbles (a b : Nibble) : lo (joinNibbles a b) = b := by
  revert a b; decide

@[simp] theorem joinNibbles_hi_lo (v : Byte) : joinNibbles (hi v) (lo v) = v := by
  unfold hi lo joinNibbles
  ext i hi'
  simp only [BitVec.getElem_append, BitVec.getElem_extractLsb', Nat.zero_add]
  split
  · exact BitVec.getLsbD_eq_getElem hi'
  · rw [show 4 + (i - 4) = i by omega]; exact BitVec.getLsbD_eq_getElem hi'

/-! ## The lookup -/

theorem mem_scanOrder (i : PatternIndex) : i ∈ scanOrder := by
  revert i; decide

/-- A found index holds the nibble (40_dispatch_nybble_pattern.md R120). -/
theorem find_some_eq {cft : FlagTable} {h : Nibble} {i : PatternIndex} (hf : find cft h = some i) :
    cft[i] = h.setWidth 8 := by
  have := List.find?_some hf
  simpa using this

/-- `NotFound` means that no entry equals the nibble (40_dispatch_nybble_pattern.md R120). -/
theorem find_none_iff {cft : FlagTable} {h : Nibble} : find cft h = none ↔ ∀ i : PatternIndex, cft[i] ≠ h.setWidth 8 := by
  unfold find
  rw [List.find?_eq_none]
  constructor
  · intro hn i hi'; exact hn i (mem_scanOrder i) (by simpa using hi')
  · intro hn i _ hi'; exact hn i (by simpa using hi')

/-! ## The operands of `COPY` -/

theorem off12_toNat (l : Nibble) (o : Byte) : (off12 l o).toNat = l.toNat * 256 + o.toNat := by
  unfold off12
  rw [BitVec.toNat_append, Nat.shiftLeft_eq, Nat.or_comm, ← Nat.mul_comm (2 ^ 8),
    Nat.or_comm, ← Nat.two_pow_add_eq_or_of_lt (by exact o.isLt)]

theorem off12_lt (l : Nibble) (o : Byte) : (off12 l o).toNat < 4096 := (off12 l o).isLt

theorem copyDistance_eq (l : Nibble) (o : Byte) : copyDistance l o = 4096 - (l.toNat * 256 + o.toNat) := by
  rw [copyDistance, off12_toNat]; rfl

theorem copyDistance_pos (l : Nibble) (o : Byte) : 0 < copyDistance l o := by
  have := off12_lt l o; unfold copyDistance Config.window; omega

theorem copyDistance_le (l : Nibble) (o : Byte) : copyDistance l o ≤ 4096 := by
  unfold copyDistance Config.window; omega

/-- `OFF = -dist` (30_encoding.md R98). -/
theorem copyOffset_eq_neg (l : Nibble) (o : Byte) : copyOffset l o = -(copyDistance l o : Int) := by
  have := off12_lt l o; unfold copyOffset copyDistance Config.window; omega

theorem copyLength_eq (h : Nibble) : copyLength h = h.toNat + 3 := rfl

theorem copyLength_pos (h : Nibble) : 0 < copyLength h := by rw [copyLength_eq]; omega

theorem copyLength_le (h : Nibble) : copyLength h ≤ 18 := by
  have := h.isLt; rw [copyLength_eq]; omega

/-! ## The decoder -/

theorem decode_nil (slot : Slot) (cft : FlagTable) : decode slot cft [] = .error .noFirstByte := rfl

theorem decode_command (cft : FlagTable) (b : Byte) (rest : List Byte) :
    decode .command cft (b :: rest) = .ok (.cmd b, rest) := rfl

theorem decode_literal (cft : FlagTable) (b : Byte) (rest : List Byte) :
    decode .literal cft (b :: rest) = .ok (.lit b, rest) := rfl

theorem decode_mode_found {cft : FlagTable} {b : Byte} {i : PatternIndex} (h : find cft (hi b) = some i)
    (rest : List Byte) : decode .mode cft (b :: rest) = .ok (nybbleInstr i (hi b) (lo b), rest) := by
  simp [decode, decodeMode, h]

theorem decode_mode_copy {cft : FlagTable} {b : Byte} (h : find cft (hi b) = none) (o : Byte) (rest : List Byte) :
    decode .mode cft (b :: o :: rest) = .ok (.copy (hi b) (lo b) o, rest) := by
  simp [decode, decodeMode, h]

theorem decode_mode_short {cft : FlagTable} {b : Byte} (h : find cft (hi b) = none) :
    decode .mode cft [b] = .error .noOffsetByte := by
  simp [decode, decodeMode, h]

theorem encode_nybbleInstr (i : PatternIndex) (h l : Nibble) : encode (nybbleInstr i h l) = [joinNibbles h l] := by
  fin_cases i <;> rfl

theorem patternIndex_nybbleInstr (i : PatternIndex) (h l : Nibble) : (nybbleInstr i h l).patternIndex = some i := by
  fin_cases i <;> rfl

/-! ## Patterns -/

/-- Index 0 gives the doubled nibble twice, for every nibble (40_dispatch_nybble_pattern.md R126). -/
theorem pattern_zero (l : Nibble) : pattern 0 l = some (joinNibbles l l, joinNibbles l l) := rfl

/-- Where every nibble is in 0..15 the pair does not depend on `NYB_OVF` (40_dispatch_nybble_pattern.md R124). -/
theorem pattern_of_fits {i : PatternIndex} {l : Nibble} (hi0 : i ≠ 0) (hf : (nibbles i l).fits = true) :
    pattern i l = some (nibbles i l).pair := by
  unfold pattern; rw [if_neg hi0, if_pos hf]

/-- Where a nibble leaves 0..15 the pair is `NYB_OVF`'s (40_dispatch_nybble_pattern.md R124). -/
theorem pattern_of_not_fits {i : PatternIndex} {l : Nibble} (hi0 : i ≠ 0) (hf : (nibbles i l).fits = false) :
    pattern i l = Config.nybOvf i l := by
  unfold pattern; rw [if_neg hi0, if_neg (by simp [hf])]

end Sys2Proof.Machine
end

