-- ==== Sys2Proof/Laws/State.lean ====
section
/-! SUPPORT. One lemma per field per state change, true by rfl, so that no proof unfolds a record update. -/

namespace Sys2Proof.Machine

/-! ## `State.advance` -/

@[simp] theorem State.advance_cft (n : Nat) (s : State) : (s.advance n).cft = s.cft := rfl
@[simp] theorem State.advance_dlen (n : Nat) (s : State) : (s.advance n).dlen = s.dlen := rfl
@[simp] theorem State.advance_clen (n : Nat) (s : State) : (s.advance n).clen = s.clen := rfl
@[simp] theorem State.advance_hlen (n : Nat) (s : State) : (s.advance n).hlen = s.hlen := rfl
@[simp] theorem State.advance_written (n : Nat) (s : State) : (s.advance n).written = s.written := rfl
@[simp] theorem State.advance_st (n : Nat) (s : State) : (s.advance n).st = s.st := rfl
@[simp] theorem State.advance_err (n : Nat) (s : State) : (s.advance n).err = s.err := rfl
@[simp] theorem State.advance_ipos (n : Nat) (s : State) : (s.advance n).ipos = s.ipos + n := rfl
@[simp] theorem State.advance_olen (n : Nat) (s : State) : (s.advance n).olen = s.olen := rfl
@[simp] theorem State.advance_cmd (n : Nat) (s : State) : (s.advance n).cmd = s.cmd := rfl
@[simp] theorem State.advance_k (n : Nat) (s : State) : (s.advance n).k = s.k := rfl
@[simp] theorem State.advance_out (n : Nat) (s : State) : (s.advance n).out = s.out := rfl
@[simp] theorem State.advance_inp (n : Nat) (s : State) : (s.advance n).inp = s.inp := rfl
@[simp] theorem State.advance_ilen (n : Nat) (s : State) : (s.advance n).ilen = s.ilen := rfl

/-! ## `State.goto` -/

@[simp] theorem State.goto_cft (t : EngineState) (s : State) : (s.goto t).cft = s.cft := rfl
@[simp] theorem State.goto_dlen (t : EngineState) (s : State) : (s.goto t).dlen = s.dlen := rfl
@[simp] theorem State.goto_clen (t : EngineState) (s : State) : (s.goto t).clen = s.clen := rfl
@[simp] theorem State.goto_hlen (t : EngineState) (s : State) : (s.goto t).hlen = s.hlen := rfl
@[simp] theorem State.goto_written (t : EngineState) (s : State) : (s.goto t).written = s.written := rfl
@[simp] theorem State.goto_st (t : EngineState) (s : State) : (s.goto t).st = t := rfl
@[simp] theorem State.goto_err (t : EngineState) (s : State) : (s.goto t).err = s.err := rfl
@[simp] theorem State.goto_ipos (t : EngineState) (s : State) : (s.goto t).ipos = s.ipos := rfl
@[simp] theorem State.goto_olen (t : EngineState) (s : State) : (s.goto t).olen = s.olen := rfl
@[simp] theorem State.goto_cmd (t : EngineState) (s : State) : (s.goto t).cmd = s.cmd := rfl
@[simp] theorem State.goto_k (t : EngineState) (s : State) : (s.goto t).k = s.k := rfl
@[simp] theorem State.goto_out (t : EngineState) (s : State) : (s.goto t).out = s.out := rfl
@[simp] theorem State.goto_inp (t : EngineState) (s : State) : (s.goto t).inp = s.inp := rfl
@[simp] theorem State.goto_ilen (t : EngineState) (s : State) : (s.goto t).ilen = s.ilen := rfl

/-! ## `State.raise` -/

@[simp] theorem State.raise_cft (f : FaultCode) (s : State) : (s.raise f).cft = s.cft := rfl
@[simp] theorem State.raise_dlen (f : FaultCode) (s : State) : (s.raise f).dlen = s.dlen := rfl
@[simp] theorem State.raise_clen (f : FaultCode) (s : State) : (s.raise f).clen = s.clen := rfl
@[simp] theorem State.raise_hlen (f : FaultCode) (s : State) : (s.raise f).hlen = s.hlen := rfl
@[simp] theorem State.raise_written (f : FaultCode) (s : State) : (s.raise f).written = s.written := rfl
@[simp] theorem State.raise_st (f : FaultCode) (s : State) : (s.raise f).st = .failed := rfl
@[simp] theorem State.raise_err (f : FaultCode) (s : State) : (s.raise f).err = f := rfl
@[simp] theorem State.raise_ipos (f : FaultCode) (s : State) : (s.raise f).ipos = s.ipos := rfl
@[simp] theorem State.raise_olen (f : FaultCode) (s : State) : (s.raise f).olen = s.olen := rfl
@[simp] theorem State.raise_cmd (f : FaultCode) (s : State) : (s.raise f).cmd = s.cmd := rfl
@[simp] theorem State.raise_k (f : FaultCode) (s : State) : (s.raise f).k = s.k := rfl
@[simp] theorem State.raise_out (f : FaultCode) (s : State) : (s.raise f).out = s.out := rfl
@[simp] theorem State.raise_inp (f : FaultCode) (s : State) : (s.raise f).inp = s.inp := rfl
@[simp] theorem State.raise_ilen (f : FaultCode) (s : State) : (s.raise f).ilen = s.ilen := rfl

/-! ## `State.latch` -/

@[simp] theorem State.latch_cft (c : Byte) (s : State) : (s.latch c).cft = s.cft := rfl
@[simp] theorem State.latch_dlen (c : Byte) (s : State) : (s.latch c).dlen = s.dlen := rfl
@[simp] theorem State.latch_clen (c : Byte) (s : State) : (s.latch c).clen = s.clen := rfl
@[simp] theorem State.latch_hlen (c : Byte) (s : State) : (s.latch c).hlen = s.hlen := rfl
@[simp] theorem State.latch_written (c : Byte) (s : State) : (s.latch c).written = s.written := rfl
@[simp] theorem State.latch_st (c : Byte) (s : State) : (s.latch c).st = .processBit := rfl
@[simp] theorem State.latch_err (c : Byte) (s : State) : (s.latch c).err = s.err := rfl
@[simp] theorem State.latch_ipos (c : Byte) (s : State) : (s.latch c).ipos = s.ipos := rfl
@[simp] theorem State.latch_olen (c : Byte) (s : State) : (s.latch c).olen = s.olen := rfl
@[simp] theorem State.latch_cmd (c : Byte) (s : State) : (s.latch c).cmd = c := rfl
@[simp] theorem State.latch_k (c : Byte) (s : State) : (s.latch c).k = 0 := rfl
@[simp] theorem State.latch_out (c : Byte) (s : State) : (s.latch c).out = s.out := rfl
@[simp] theorem State.latch_inp (c : Byte) (s : State) : (s.latch c).inp = s.inp := rfl
@[simp] theorem State.latch_ilen (c : Byte) (s : State) : (s.latch c).ilen = s.ilen := rfl

/-! ## `State.append` -/

@[simp] theorem State.append_cft (b : Byte) (s : State) : (s.append b).cft = s.cft := rfl
@[simp] theorem State.append_dlen (b : Byte) (s : State) : (s.append b).dlen = s.dlen := rfl
@[simp] theorem State.append_clen (b : Byte) (s : State) : (s.append b).clen = s.clen := rfl
@[simp] theorem State.append_hlen (b : Byte) (s : State) : (s.append b).hlen = s.hlen := rfl
@[simp] theorem State.append_written (b : Byte) (s : State) : (s.append b).written = s.written := rfl
@[simp] theorem State.append_st (b : Byte) (s : State) : (s.append b).st = s.st := rfl
@[simp] theorem State.append_err (b : Byte) (s : State) : (s.append b).err = s.err := rfl
@[simp] theorem State.append_ipos (b : Byte) (s : State) : (s.append b).ipos = s.ipos := rfl
@[simp] theorem State.append_olen (b : Byte) (s : State) : (s.append b).olen = s.olen + 1 := rfl
@[simp] theorem State.append_cmd (b : Byte) (s : State) : (s.append b).cmd = s.cmd := rfl
@[simp] theorem State.append_k (b : Byte) (s : State) : (s.append b).k = s.k := rfl
@[simp] theorem State.append_out (b : Byte) (s : State) : (s.append b).out = s.out.write s.olen.toNat b := rfl
@[simp] theorem State.append_inp (b : Byte) (s : State) : (s.append b).inp = s.inp := rfl
@[simp] theorem State.append_ilen (b : Byte) (s : State) : (s.append b).ilen = s.ilen := rfl

/-! ## `State.start` -/

@[simp] theorem State.start_cft (s : State) : (s.start).cft = s.cft := rfl
@[simp] theorem State.start_dlen (s : State) : (s.start).dlen = s.dlen := rfl
@[simp] theorem State.start_clen (s : State) : (s.start).clen = s.clen := rfl
@[simp] theorem State.start_hlen (s : State) : (s.start).hlen = s.hlen := rfl
@[simp] theorem State.start_written (s : State) : (s.start).written = s.written := rfl
@[simp] theorem State.start_st (s : State) : (s.start).st = .readCommandByte := rfl
@[simp] theorem State.start_err (s : State) : (s.start).err = .none := rfl
@[simp] theorem State.start_ipos (s : State) : (s.start).ipos = 0 := rfl
@[simp] theorem State.start_olen (s : State) : (s.start).olen = 0 := rfl
@[simp] theorem State.start_cmd (s : State) : (s.start).cmd = s.cmd := rfl
@[simp] theorem State.start_k (s : State) : (s.start).k = s.k := rfl
@[simp] theorem State.start_out (s : State) : (s.start).out = [] := rfl
@[simp] theorem State.start_inp (s : State) : (s.start).inp = s.inp := rfl
@[simp] theorem State.start_ilen (s : State) : (s.start).ilen = s.ilen := rfl

/-! ## `State.setDlen` -/

@[simp] theorem State.setDlen_cft (v : Nat) (s : State) : (s.setDlen v).cft = s.cft := rfl
@[simp] theorem State.setDlen_dlen (v : Nat) (s : State) : (s.setDlen v).dlen = BitVec.ofNat 32 v := rfl
@[simp] theorem State.setDlen_clen (v : Nat) (s : State) : (s.setDlen v).clen = s.clen := rfl
@[simp] theorem State.setDlen_hlen (v : Nat) (s : State) : (s.setDlen v).hlen = s.hlen := rfl
@[simp] theorem State.setDlen_written (v : Nat) (s : State) : (s.setDlen v).written = { s.written with dlen := true } := rfl
@[simp] theorem State.setDlen_st (v : Nat) (s : State) : (s.setDlen v).st = s.st := rfl
@[simp] theorem State.setDlen_err (v : Nat) (s : State) : (s.setDlen v).err = s.err := rfl
@[simp] theorem State.setDlen_ipos (v : Nat) (s : State) : (s.setDlen v).ipos = s.ipos := rfl
@[simp] theorem State.setDlen_olen (v : Nat) (s : State) : (s.setDlen v).olen = s.olen := rfl
@[simp] theorem State.setDlen_cmd (v : Nat) (s : State) : (s.setDlen v).cmd = s.cmd := rfl
@[simp] theorem State.setDlen_k (v : Nat) (s : State) : (s.setDlen v).k = s.k := rfl
@[simp] theorem State.setDlen_out (v : Nat) (s : State) : (s.setDlen v).out = s.out := rfl
@[simp] theorem State.setDlen_inp (v : Nat) (s : State) : (s.setDlen v).inp = s.inp := rfl
@[simp] theorem State.setDlen_ilen (v : Nat) (s : State) : (s.setDlen v).ilen = s.ilen := rfl

/-! ## `State.setClen` -/

@[simp] theorem State.setClen_cft (v : Nat) (s : State) : (s.setClen v).cft = s.cft := rfl
@[simp] theorem State.setClen_dlen (v : Nat) (s : State) : (s.setClen v).dlen = s.dlen := rfl
@[simp] theorem State.setClen_clen (v : Nat) (s : State) : (s.setClen v).clen = BitVec.ofNat 16 v := rfl
@[simp] theorem State.setClen_hlen (v : Nat) (s : State) : (s.setClen v).hlen = s.hlen := rfl
@[simp] theorem State.setClen_written (v : Nat) (s : State) : (s.setClen v).written = { s.written with clen := true } := rfl
@[simp] theorem State.setClen_st (v : Nat) (s : State) : (s.setClen v).st = s.st := rfl
@[simp] theorem State.setClen_err (v : Nat) (s : State) : (s.setClen v).err = s.err := rfl
@[simp] theorem State.setClen_ipos (v : Nat) (s : State) : (s.setClen v).ipos = s.ipos := rfl
@[simp] theorem State.setClen_olen (v : Nat) (s : State) : (s.setClen v).olen = s.olen := rfl
@[simp] theorem State.setClen_cmd (v : Nat) (s : State) : (s.setClen v).cmd = s.cmd := rfl
@[simp] theorem State.setClen_k (v : Nat) (s : State) : (s.setClen v).k = s.k := rfl
@[simp] theorem State.setClen_out (v : Nat) (s : State) : (s.setClen v).out = s.out := rfl
@[simp] theorem State.setClen_inp (v : Nat) (s : State) : (s.setClen v).inp = s.inp := rfl
@[simp] theorem State.setClen_ilen (v : Nat) (s : State) : (s.setClen v).ilen = s.ilen := rfl

/-! ## `State.setHlen` -/

@[simp] theorem State.setHlen_cft (v : Nat) (s : State) : (s.setHlen v).cft = s.cft := rfl
@[simp] theorem State.setHlen_dlen (v : Nat) (s : State) : (s.setHlen v).dlen = s.dlen := rfl
@[simp] theorem State.setHlen_clen (v : Nat) (s : State) : (s.setHlen v).clen = s.clen := rfl
@[simp] theorem State.setHlen_hlen (v : Nat) (s : State) : (s.setHlen v).hlen = BitVec.ofNat 8 v := rfl
@[simp] theorem State.setHlen_written (v : Nat) (s : State) : (s.setHlen v).written = { s.written with hlen := true } := rfl
@[simp] theorem State.setHlen_st (v : Nat) (s : State) : (s.setHlen v).st = s.st := rfl
@[simp] theorem State.setHlen_err (v : Nat) (s : State) : (s.setHlen v).err = s.err := rfl
@[simp] theorem State.setHlen_ipos (v : Nat) (s : State) : (s.setHlen v).ipos = s.ipos := rfl
@[simp] theorem State.setHlen_olen (v : Nat) (s : State) : (s.setHlen v).olen = s.olen := rfl
@[simp] theorem State.setHlen_cmd (v : Nat) (s : State) : (s.setHlen v).cmd = s.cmd := rfl
@[simp] theorem State.setHlen_k (v : Nat) (s : State) : (s.setHlen v).k = s.k := rfl
@[simp] theorem State.setHlen_out (v : Nat) (s : State) : (s.setHlen v).out = s.out := rfl
@[simp] theorem State.setHlen_inp (v : Nat) (s : State) : (s.setHlen v).inp = s.inp := rfl
@[simp] theorem State.setHlen_ilen (v : Nat) (s : State) : (s.setHlen v).ilen = s.ilen := rfl

/-! ## `State.setCft` -/

@[simp] theorem State.setCft_cft (i : PatternIndex) (v : Nat) (s : State) : (s.setCft i v).cft = s.cft.set i (BitVec.ofNat 8 v) := rfl
@[simp] theorem State.setCft_dlen (i : PatternIndex) (v : Nat) (s : State) : (s.setCft i v).dlen = s.dlen := rfl
@[simp] theorem State.setCft_clen (i : PatternIndex) (v : Nat) (s : State) : (s.setCft i v).clen = s.clen := rfl
@[simp] theorem State.setCft_hlen (i : PatternIndex) (v : Nat) (s : State) : (s.setCft i v).hlen = s.hlen := rfl
@[simp] theorem State.setCft_written (i : PatternIndex) (v : Nat) (s : State) : (s.setCft i v).written = { s.written with cft := s.written.cft.set i true } := rfl
@[simp] theorem State.setCft_st (i : PatternIndex) (v : Nat) (s : State) : (s.setCft i v).st = s.st := rfl
@[simp] theorem State.setCft_err (i : PatternIndex) (v : Nat) (s : State) : (s.setCft i v).err = s.err := rfl
@[simp] theorem State.setCft_ipos (i : PatternIndex) (v : Nat) (s : State) : (s.setCft i v).ipos = s.ipos := rfl
@[simp] theorem State.setCft_olen (i : PatternIndex) (v : Nat) (s : State) : (s.setCft i v).olen = s.olen := rfl
@[simp] theorem State.setCft_cmd (i : PatternIndex) (v : Nat) (s : State) : (s.setCft i v).cmd = s.cmd := rfl
@[simp] theorem State.setCft_k (i : PatternIndex) (v : Nat) (s : State) : (s.setCft i v).k = s.k := rfl
@[simp] theorem State.setCft_out (i : PatternIndex) (v : Nat) (s : State) : (s.setCft i v).out = s.out := rfl
@[simp] theorem State.setCft_inp (i : PatternIndex) (v : Nat) (s : State) : (s.setCft i v).inp = s.inp := rfl
@[simp] theorem State.setCft_ilen (i : PatternIndex) (v : Nat) (s : State) : (s.setCft i v).ilen = s.ilen := rfl

/-! ## `State.supply` -/

@[simp] theorem State.supply_cft (bytes : List Byte) (s : State) : (s.supply bytes).cft = s.cft := rfl
@[simp] theorem State.supply_dlen (bytes : List Byte) (s : State) : (s.supply bytes).dlen = s.dlen := rfl
@[simp] theorem State.supply_clen (bytes : List Byte) (s : State) : (s.supply bytes).clen = s.clen := rfl
@[simp] theorem State.supply_hlen (bytes : List Byte) (s : State) : (s.supply bytes).hlen = s.hlen := rfl
@[simp] theorem State.supply_written (bytes : List Byte) (s : State) : (s.supply bytes).written = s.written := rfl
@[simp] theorem State.supply_st (bytes : List Byte) (s : State) : (s.supply bytes).st = s.st := rfl
@[simp] theorem State.supply_err (bytes : List Byte) (s : State) : (s.supply bytes).err = s.err := rfl
@[simp] theorem State.supply_ipos (bytes : List Byte) (s : State) : (s.supply bytes).ipos = s.ipos := rfl
@[simp] theorem State.supply_olen (bytes : List Byte) (s : State) : (s.supply bytes).olen = s.olen := rfl
@[simp] theorem State.supply_cmd (bytes : List Byte) (s : State) : (s.supply bytes).cmd = s.cmd := rfl
@[simp] theorem State.supply_k (bytes : List Byte) (s : State) : (s.supply bytes).k = s.k := rfl
@[simp] theorem State.supply_out (bytes : List Byte) (s : State) : (s.supply bytes).out = s.out := rfl
@[simp] theorem State.supply_inp (bytes : List Byte) (s : State) : (s.supply bytes).inp = Memory.ofBytes 0 bytes := rfl
@[simp] theorem State.supply_ilen (bytes : List Byte) (s : State) : (s.supply bytes).ilen = bytes.length := rfl

/-! ## `State.withInput` -/

@[simp] theorem State.withInput_cft (m : Memory) (n : Nat) (s : State) : (s.withInput m n).cft = s.cft := rfl
@[simp] theorem State.withInput_dlen (m : Memory) (n : Nat) (s : State) : (s.withInput m n).dlen = s.dlen := rfl
@[simp] theorem State.withInput_clen (m : Memory) (n : Nat) (s : State) : (s.withInput m n).clen = s.clen := rfl
@[simp] theorem State.withInput_hlen (m : Memory) (n : Nat) (s : State) : (s.withInput m n).hlen = s.hlen := rfl
@[simp] theorem State.withInput_written (m : Memory) (n : Nat) (s : State) : (s.withInput m n).written = s.written := rfl
@[simp] theorem State.withInput_st (m : Memory) (n : Nat) (s : State) : (s.withInput m n).st = s.st := rfl
@[simp] theorem State.withInput_err (m : Memory) (n : Nat) (s : State) : (s.withInput m n).err = s.err := rfl
@[simp] theorem State.withInput_ipos (m : Memory) (n : Nat) (s : State) : (s.withInput m n).ipos = s.ipos := rfl
@[simp] theorem State.withInput_olen (m : Memory) (n : Nat) (s : State) : (s.withInput m n).olen = s.olen := rfl
@[simp] theorem State.withInput_cmd (m : Memory) (n : Nat) (s : State) : (s.withInput m n).cmd = s.cmd := rfl
@[simp] theorem State.withInput_k (m : Memory) (n : Nat) (s : State) : (s.withInput m n).k = s.k := rfl
@[simp] theorem State.withInput_out (m : Memory) (n : Nat) (s : State) : (s.withInput m n).out = s.out := rfl
@[simp] theorem State.withInput_inp (m : Memory) (n : Nat) (s : State) : (s.withInput m n).inp = m := rfl
@[simp] theorem State.withInput_ilen (m : Memory) (n : Nat) (s : State) : (s.withInput m n).ilen = n := rfl

/-! ## `State.nextBit` -/

@[simp] theorem State.nextBit_cft (s : State) : s.nextBit.cft = s.cft := by unfold State.nextBit; split <;> rfl
@[simp] theorem State.nextBit_dlen (s : State) : s.nextBit.dlen = s.dlen := by unfold State.nextBit; split <;> rfl
@[simp] theorem State.nextBit_clen (s : State) : s.nextBit.clen = s.clen := by unfold State.nextBit; split <;> rfl
@[simp] theorem State.nextBit_hlen (s : State) : s.nextBit.hlen = s.hlen := by unfold State.nextBit; split <;> rfl
@[simp] theorem State.nextBit_written (s : State) : s.nextBit.written = s.written := by unfold State.nextBit; split <;> rfl
@[simp] theorem State.nextBit_err (s : State) : s.nextBit.err = s.err := by unfold State.nextBit; split <;> rfl
@[simp] theorem State.nextBit_ipos (s : State) : s.nextBit.ipos = s.ipos := by unfold State.nextBit; split <;> rfl
@[simp] theorem State.nextBit_olen (s : State) : s.nextBit.olen = s.olen := by unfold State.nextBit; split <;> rfl
@[simp] theorem State.nextBit_cmd (s : State) : s.nextBit.cmd = s.cmd := by unfold State.nextBit; split <;> rfl
@[simp] theorem State.nextBit_out (s : State) : s.nextBit.out = s.out := by unfold State.nextBit; split <;> rfl
@[simp] theorem State.nextBit_inp (s : State) : s.nextBit.inp = s.inp := by unfold State.nextBit; split <;> rfl
@[simp] theorem State.nextBit_ilen (s : State) : s.nextBit.ilen = s.ilen := by unfold State.nextBit; split <;> rfl

theorem State.nextBit_k (s : State) : s.nextBit.k = if s.k < 7 then s.k + 1 else s.k := by
  unfold State.nextBit; split <;> rfl

theorem State.nextBit_st (s : State) : s.nextBit.st = if s.k < 7 then s.st else .readCommandByte := by
  unfold State.nextBit; split <;> rfl

/-! ## `State.reset` and `hardwareReset` -/

@[simp] theorem State.reset_cft : State.reset.cft = Vector.replicate 9 0 := rfl
@[simp] theorem State.reset_dlen : State.reset.dlen = 0 := rfl
@[simp] theorem State.reset_clen : State.reset.clen = 0 := rfl
@[simp] theorem State.reset_hlen : State.reset.hlen = 0 := rfl
@[simp] theorem State.reset_written : State.reset.written = { cft := Vector.replicate 9 false, dlen := false, clen := false, hlen := false } := rfl
@[simp] theorem State.reset_st : State.reset.st = .idle := rfl
@[simp] theorem State.reset_err : State.reset.err = .none := rfl
@[simp] theorem State.reset_ipos : State.reset.ipos = 0 := rfl
@[simp] theorem State.reset_olen : State.reset.olen = 0 := rfl
@[simp] theorem State.reset_cmd : State.reset.cmd = 0 := rfl
@[simp] theorem State.reset_k : State.reset.k = 0 := rfl
@[simp] theorem State.reset_out : State.reset.out = [] := rfl
@[simp] theorem State.reset_inp : State.reset.inp = [] := rfl
@[simp] theorem State.reset_ilen : State.reset.ilen = 0 := rfl
@[simp] theorem hardwareReset_cft (s : State) : (hardwareReset s).cft = Vector.replicate 9 0 := rfl
@[simp] theorem hardwareReset_dlen (s : State) : (hardwareReset s).dlen = 0 := rfl
@[simp] theorem hardwareReset_clen (s : State) : (hardwareReset s).clen = 0 := rfl
@[simp] theorem hardwareReset_hlen (s : State) : (hardwareReset s).hlen = 0 := rfl
@[simp] theorem hardwareReset_written (s : State) : (hardwareReset s).written = { cft := Vector.replicate 9 false, dlen := false, clen := false, hlen := false } := rfl
@[simp] theorem hardwareReset_st (s : State) : (hardwareReset s).st = .idle := rfl
@[simp] theorem hardwareReset_err (s : State) : (hardwareReset s).err = .none := rfl
@[simp] theorem hardwareReset_ipos (s : State) : (hardwareReset s).ipos = 0 := rfl
@[simp] theorem hardwareReset_olen (s : State) : (hardwareReset s).olen = 0 := rfl
@[simp] theorem hardwareReset_cmd (s : State) : (hardwareReset s).cmd = 0 := rfl
@[simp] theorem hardwareReset_k (s : State) : (hardwareReset s).k = 0 := rfl
@[simp] theorem hardwareReset_out (s : State) : (hardwareReset s).out = [] := rfl
@[simp] theorem hardwareReset_inp (s : State) : (hardwareReset s).inp = s.inp := rfl
@[simp] theorem hardwareReset_ilen (s : State) : (hardwareReset s).ilen = s.ilen := rfl

end Sys2Proof.Machine
end

