-- ==== Sys2Proof/Laws/Ops.lean ====
section
/-! SUPPORT. What each shared operation can do, said once; the induction over a command's operations, packaged once. -/

namespace Sys2Proof.Machine

/-! ## Reads of `IN` -/

theorem State.inByte_of_lt {s : State} {a : Nat} (h : a < s.ilen) : s.inByte a = some (s.inp.read a) := if_pos h

theorem State.inByte_of_ge {s : State} {a : Nat} (h : s.ilen ≤ a) : s.inByte a = none := if_neg (by omega)

/-- A read inside the stream answers the byte at `IPOS` and advances `IPOS` by one (20_memory.md R66). -/
theorem State.inRead_of_lt {s : State} (h : s.ipos < s.ilen) : s.inRead = some (s.inp.read s.ipos, s.advance 1) := by
  simp [State.inRead, State.inByte_of_lt h]

/-- A read at or past the end fails (20_memory.md R66). -/
theorem State.inRead_of_ge {s : State} (h : s.ilen ≤ s.ipos) : s.inRead = none := by
  simp [State.inRead, State.inByte_of_ge h]

theorem State.readThen_of_lt {s : State} (h : s.ipos < s.ilen) (f : State → State) :
    s.readThen f = f (s.advance 1) := by
  simp [State.readThen, State.inRead_of_lt h]

theorem State.readThen_of_ge {s : State} (h : s.ilen ≤ s.ipos) (f : State → State) :
    s.readThen f = s.raise .ioError := by
  simp [State.readThen, State.inRead_of_ge h]

@[simp] theorem State.advance_advance (m n : Nat) (s : State) : (s.advance m).advance n = s.advance (m + n) := by
  simp [State.advance, Nat.add_assoc]

/-- Two reads in a row, as `COPY` makes them (41_backref_copy.md R140). -/
theorem State.readThen_readThen {s : State} (h : s.ipos + 2 ≤ s.ilen) (f : State → State) :
    s.readThen (fun t => t.readThen f) = f (s.advance 2) := by
  rw [State.readThen_of_lt (by omega), State.readThen_of_lt (by simp; omega), State.advance_advance]

/-- The second read of `COPY` fails after the first has advanced `IPOS` (60_exceptions.md R217). -/
theorem State.readThen_readThen_short {s : State} (h : s.ilen = s.ipos + 1) (f : State → State) :
    s.readThen (fun t => t.readThen f) = (s.advance 1).raise .ioError := by
  rw [State.readThen_of_lt (by omega), State.readThen_of_ge (by simp; omega)]

/-! ## Appending -/

/-- `Emit` in one equation (42_decode_loop.md R163). -/
theorem State.emit_eq (b : Byte) (s : State) :
    s.emit b = if s.dlen ≤ s.olen + 1 then .ended ((s.append b).goto .done) else .running (s.append b) := by
  unfold State.emit State.lengthReached
  by_cases h : (s.append b).dlen ≤ (s.append b).olen
  · rw [if_pos (decide_eq_true h)]; exact (if_pos h).symm
  · rw [if_neg (fun hd => h (of_decide_eq_true hd))]; exact (if_neg h).symm

@[simp] theorem Progress.finish_running (s : State) : (Progress.running s).finish = s.nextBit := rfl
@[simp] theorem Progress.finish_ended (s : State) : (Progress.ended s).finish = s := rfl
@[simp] theorem Progress.andThen_running (s : State) (f : State → Progress) : (Progress.running s).andThen f = f s := rfl
@[simp] theorem Progress.andThen_ended (s : State) (f : State → Progress) : (Progress.ended s).andThen f = .ended s := rfl

/-- A command that ends with this one append (42_decode_loop.md R163, R164). -/
theorem State.emit_finish (b : Byte) (s : State) : (s.emit b).finish = (s.append b).settle := by
  rw [State.emit_eq, State.settle]
  simp only [State.append_dlen, State.append_olen]
  by_cases h : s.dlen ≤ s.olen + 1 <;> simp only [h, if_true, if_false, Progress.finish_ended, Progress.finish_running]

/-! ## Reads of `OUT` and the copy loop -/

theorem State.memRead_of_lt {s : State} {a : Nat} (h : a < s.olen.toNat) : s.memRead a = some (s.out.read a) := by
  rw [State.memRead, if_pos (by omega)]; rfl

theorem State.memRead_of_neg {s : State} {a : Int} (h : a < 0) : s.memRead a = none := by
  rw [State.memRead, if_neg (by omega)]

@[simp] theorem State.copyLoop_zero (a : Int) (s : State) : s.copyLoop 0 a = .running s := rfl

/-- One iteration of the copy in range (41_backref_copy.md R144). -/
theorem State.copyLoop_succ {s : State} {a : Int} {b : Byte} (h : s.memRead a = some b) (n : Nat) :
    s.copyLoop (n + 1) a = (s.emit b).andThen (State.copyLoop n (a + 1)) := by
  simp [State.copyLoop, h]

/-- One iteration of the copy out of range (41_backref_copy.md R143). -/
theorem State.copyLoop_out {s : State} {a : Int} (h : s.memRead a = none) (n : Nat) :
    s.copyLoop (n + 1) a = .ended (s.raise .backRefOutOfRange) := by
  simp [State.copyLoop, h]

/-- The source address of a copy in range is `OLEN - dist` (41_backref_copy.md R142). -/
theorem State.copySource_of_le {s : State} {l : Nibble} {o : Byte} (h : copyDistance l o ≤ s.olen.toNat) :
    s.copySource l o = ((s.olen.toNat - copyDistance l o : Nat) : Int) := by
  rw [State.copySource, copyOffset_eq_neg]; omega

/-- The source address is negative exactly when `OLEN < dist` (41_backref_copy.md R142). -/
theorem State.copySource_neg_iff (s : State) (l : Nibble) (o : Byte) :
    s.copySource l o < 0 ↔ s.olen.toNat < copyDistance l o := by
  rw [State.copySource, copyOffset_eq_neg]; omega

/-! ## Properties kept by every operation of a command -/

/-- The state a command has reached. -/
def Progress.state : Progress → State
  | .running s => s
  | .ended s => s

@[simp] theorem Progress.state_running (s : State) : (Progress.running s).state = s := rfl
@[simp] theorem Progress.state_ended (s : State) : (Progress.ended s).state = s := rfl

/-- A property kept by each state change the engine makes is kept by every command. -/
structure KeptByOps (P : State → Prop) : Prop where
  advance : ∀ n s, P s → P (s.advance n)
  raise : ∀ f s, P s → P (s.raise f)
  latch : ∀ c s, P s → P (s.latch c)
  append : ∀ b s, P s → P (s.append b)
  nextBit : ∀ s, P s → P s.nextBit
  goto : ∀ e s, P s → P (s.goto e)

variable {P : State → Prop}

theorem KeptByOps.readThen (h : KeptByOps P) {s : State} (hs : P s) {f : State → State} (hf : ∀ t, P t → P (f t)) :
    P (s.readThen f) := by
  by_cases hl : s.ipos < s.ilen
  · rw [State.readThen_of_lt hl]; exact hf _ (h.advance 1 s hs)
  · rw [State.readThen_of_ge (by omega)]; exact h.raise _ _ hs

theorem KeptByOps.emit (h : KeptByOps P) {s : State} (hs : P s) (b : Byte) : P (s.emit b).state := by
  rw [State.emit_eq]
  split
  · exact h.goto _ _ (h.append _ _ hs)
  · exact h.append _ _ hs

theorem KeptByOps.finish (h : KeptByOps P) {p : Progress} (hp : P p.state) : P p.finish := by
  cases p with
  | running s => exact h.nextBit s hp
  | ended s => exact hp

theorem Progress.andThen_state {p : Progress} (hp : P p.state) {f : State → Progress} (hf : ∀ t, P t → P (f t).state) :
    P (p.andThen f).state := by
  cases p with
  | running s => exact hf s hp
  | ended s => exact hp

theorem KeptByOps.copyLoop (h : KeptByOps P) (n : Nat) (a : Int) {s : State} (hs : P s) : P (s.copyLoop n a).state := by
  induction n generalizing a s with
  | zero => exact hs
  | succ n ih =>
    cases hm : s.memRead a with
    | none => rw [State.copyLoop_out hm]; exact h.raise _ _ hs
    | some b => rw [State.copyLoop_succ hm]; exact Progress.andThen_state (h.emit hs b) fun t ht => ih (a + 1) ht

theorem KeptByOps.nybble (h : KeptByOps P) (i : PatternIndex) (l : Nibble) {s : State} (hs : P s) : P (s.nybble i l) := by
  refine h.readThen hs fun t ht => ?_
  cases pattern i l with
  | none => exact h.raise _ _ ht
  | some p => exact h.finish (Progress.andThen_state (h.emit ht p.1) fun u hu => h.emit hu p.2)

/-- A property kept by each state change of the engine is kept by every command. -/
theorem KeptByOps.exec (h : KeptByOps P) {i : Instr} {s t : State} (he : exec i s = .next t) (hs : P s) : P t := by
  cases i <;> cases he
  case cmd c => exact h.readThen hs fun u hu => h.latch c u hu
  case lit d => exact h.readThen hs fun u hu => h.finish (h.emit hu d)
  case copy hn l o => exact h.readThen hs fun u hu => h.readThen hu fun v hv => h.finish (h.copyLoop _ _ hv)
  all_goals exact h.nybble _ _ hs

/-! ## The phases of an item command -/

/-- What an item command (`LIT`, `NYBi`, `COPY`) leads to, by its phases: `R0` while it has appended nothing, `R` once it
has appended and not stopped, `E` at its end. -/
structure ItemPhases (R0 R E : State → Prop) : Prop where
  read : ∀ u, R0 u → u.ipos < u.ilen → R0 (u.advance 1)
  first : ∀ b u, R0 u → ¬ u.dlen ≤ u.olen + 1 → R (u.append b)
  later : ∀ b u, R u → ¬ u.dlen ≤ u.olen + 1 → R (u.append b)
  stopFirst : ∀ b u, R0 u → u.dlen ≤ u.olen + 1 → E ((u.append b).goto .done)
  stopLater : ∀ b u, R u → u.dlen ≤ u.olen + 1 → E ((u.append b).goto .done)
  raiseIOError : ∀ u, R0 u → u.ilen ≤ u.ipos → E (u.raise .ioError)
  raiseNybbleRange : ∀ u, R0 u → E (u.raise .nybbleRange)
  raiseFirst : ∀ u, R0 u → E (u.raise .backRefOutOfRange)
  raiseLater : ∀ u, R u → E (u.raise .backRefOutOfRange)
  next : ∀ u, R u → E u.nextBit

variable {R0 R E : State → Prop}

/-- Where a command stands, by its phases: `R` while it goes on, `E` once the step has ended. -/
def Progress.At (R E : State → Prop) : Progress → Prop
  | .running s => R s
  | .ended s => E s

theorem Progress.At.andThen {p : Progress} (hp : p.At R E) {f : State → Progress} (hf : ∀ u, R u → (f u).At R E) :
    (p.andThen f).At R E := by
  cases p with
  | running s => exact hf s hp
  | ended s => exact hp

theorem ItemPhases.emitFirst (h : ItemPhases R0 R E) {u : State} (hu : R0 u) (b : Byte) : (u.emit b).At R E := by
  rw [State.emit_eq]
  split
  · exact h.stopFirst b u hu ‹_›
  · exact h.first b u hu ‹_›

theorem ItemPhases.emitLater (h : ItemPhases R0 R E) {u : State} (hu : R u) (b : Byte) : (u.emit b).At R E := by
  rw [State.emit_eq]
  split
  · exact h.stopLater b u hu ‹_›
  · exact h.later b u hu ‹_›

theorem ItemPhases.finish (h : ItemPhases R0 R E) {p : Progress} (hp : p.At R E) : E p.finish := by
  cases p with
  | running s => exact h.next s hp
  | ended s => exact hp

theorem ItemPhases.copyLater (h : ItemPhases R0 R E) (n : Nat) (a : Int) {u : State} (hu : R u) :
    (u.copyLoop n a).At R E := by
  induction n generalizing a u with
  | zero => exact hu
  | succ n ih =>
    cases hm : u.memRead a with
    | none => rw [State.copyLoop_out hm]; exact h.raiseLater u hu
    | some b => rw [State.copyLoop_succ hm]; exact (h.emitLater hu b).andThen fun v hv => ih (a + 1) hv

theorem ItemPhases.copyFirst (h : ItemPhases R0 R E) (n : Nat) (a : Int) {u : State} (hu : R0 u) :
    (u.copyLoop (n + 1) a).At R E := by
  cases hm : u.memRead a with
  | none => rw [State.copyLoop_out hm]; exact h.raiseFirst u hu
  | some b => rw [State.copyLoop_succ hm]; exact (h.emitFirst hu b).andThen fun v hv => h.copyLater n (a + 1) hv

theorem ItemPhases.readThen (h : ItemPhases R0 R E) {u : State} (hu : R0 u) {f : State → State}
    (hf : ∀ v, R0 v → E (f v)) : E (u.readThen f) := by
  by_cases hl : u.ipos < u.ilen
  · rw [State.readThen_of_lt hl]; exact hf _ (h.read u hu hl)
  · rw [State.readThen_of_ge (by omega)]; exact h.raiseIOError u hu (by omega)

theorem ItemPhases.nybble (h : ItemPhases R0 R E) (i : PatternIndex) (l : Nibble) {u : State} (hu : R0 u) :
    E (u.nybble i l) := by
  refine h.readThen hu fun v hv => ?_
  cases pattern i l with
  | none => exact h.raiseNybbleRange v hv
  | some p => exact h.finish ((h.emitFirst hv p.1).andThen fun w hw => h.emitLater hw p.2)

/-- Everything an item command can lead to. -/
theorem ItemPhases.exec (h : ItemPhases R0 R E) {i : Instr} (hi : ∀ c, i ≠ .cmd c) {s t : State}
    (he : exec i s = .next t) (hs : R0 s) : E t := by
  cases i <;> cases he
  case cmd c => exact absurd rfl (hi c)
  case lit d => exact h.readThen hs fun u hu => h.finish (h.emitFirst hu d)
  case copy hn l o =>
    exact h.readThen hs fun u hu => h.readThen hu fun v hv => h.finish (h.copyFirst (hn.toNat + 2) _ hv)
  all_goals exact h.nybble _ _ hs

/-- Every command answers a next state: a fault of the engine is taken as one (60_exceptions.md R216). -/
theorem exec_next (i : Instr) (s : State) : ∃ t, exec i s = .next t := by
  cases i <;> exact ⟨_, rfl⟩

end Sys2Proof.Machine
end

