-- ==== Sys2Proof/Laws/Step.lean ====
section
/-! SUPPORT. What one step of the engine and one operation of the host can do, said once. -/

namespace Sys2Proof.Machine

/-! ## Fetching -/

/-- The bytes the fetch looks at (30_encoding.md R94). -/
theorem State.fetchBytes_eq (s : State) :
    s.fetchBytes =
      if s.ipos + 1 < s.ilen then [s.inp.read s.ipos, s.inp.read (s.ipos + 1)]
      else if s.ipos < s.ilen then [s.inp.read s.ipos] else [] := by
  simp only [State.fetchBytes, State.inBytes]
  by_cases h0 : s.ipos < s.ilen
  · rw [State.inByte_of_lt h0]
    by_cases h1 : s.ipos + 1 < s.ilen
    · simp [State.inByte_of_lt h1, h1]
    · simp [State.inByte_of_ge (Nat.not_lt.mp h1), h1, h0]
  · simp [State.inByte_of_ge (Nat.not_lt.mp h0), h0, show ¬ s.ipos + 1 < s.ilen by omega]

/-- The states that read a payload byte, with the slot of that byte (30_encoding.md R95). -/
theorem State.slot_eq_some {s : State} {slot : Slot} (h : s.slot = some slot) :
    (s.st = .readCommandByte ∧ slot = .command) ∨
      (s.st = .processBit ∧ msb s.cmd s.k = true ∧ slot = .literal) ∨
      (s.st = .processBit ∧ msb s.cmd s.k = false ∧ slot = .mode) := by
  unfold State.slot selectSlot at h
  split at h <;> simp_all
  split at h <;> simp_all

/-- Where no payload byte is read the engine is at rest or about to make the final check. -/
theorem State.slot_eq_none {s : State} (h : s.slot = none) :
    s.st = .idle ∨ s.st = .done ∨ s.st = .success ∨ s.st = .failed := by
  unfold State.slot selectSlot at h
  split at h <;> simp_all
  split at h <;> simp_all

/-- Everything a step that answers a next state can have done (42_decode_loop.md R160). -/
theorem step_cases {s t : State} (h : step s = .next t) :
    (∃ slot i, s.slot = some slot ∧ s.fetch slot = .ok i ∧ exec i s = .next t) ∨
      (∃ slot e, s.slot = some slot ∧ decode slot s.cft s.fetchBytes = .error e ∧ t = s.starved e) ∨
      (s.st = .done ∧ t = s.finalCheck) := by
  unfold step at h
  split at h
  · rename_i slot hslot
    split at h
    · rename_i i hi
      exact .inl ⟨slot, i, hslot, hi, h⟩
    · rename_i u hu
      unfold State.fetch at hu
      split at hu
      · cases hu
      · rename_i e he
        cases hu; cases h
        exact .inr (.inl ⟨slot, e, hslot, he, rfl⟩)
  · split at h
    · rename_i hd
      cases h
      exact .inr (.inr ⟨hd, rfl⟩)
    · unfold State.rest at h
      split at h <;> cases h

/-- A fetch that answers a command has decoded it from the bytes at `IPOS`. -/
theorem State.fetch_eq_ok {s : State} {slot : Slot} {i : Instr} (h : s.fetch slot = .ok i) :
    ∃ rest, decode slot s.cft s.fetchBytes = .ok (i, rest) := by
  unfold State.fetch at h
  split at h
  · rename_i j r hj
    cases h
    exact ⟨r, hj⟩
  · cases h

/-- A property kept by each state change of the engine is kept by every step. -/
theorem KeptByOps.step {P : State → Prop} (h : KeptByOps P) {s t : State} (hs : step s = .next t) (hp : P s) : P t := by
  rcases step_cases hs with ⟨_, i, _, _, he⟩ | ⟨_, e, _, _, rfl⟩ | ⟨_, rfl⟩
  · exact h.exec he hp
  · cases e with
    | noFirstByte => exact h.raise _ _ hp
    | noOffsetByte => exact h.raise _ _ (h.advance _ _ hp)
  · unfold State.finalCheck
    split
    · exact h.goto _ _ hp
    · exact h.raise _ _ hp

/-! ## The host -/

/-- Everything a host operation that answers a next state can have done (43_host_frontend.md R190). -/
theorem hostStep_cases {op : HostOp} {s t : State} (h : hostStep op s = .next t) :
    t = hardwareReset s ∨
      (atRest s.st = true ∧
        (t = s ∨ (s.written.all = true ∧ t = s.start) ∨ (∃ v, t = s.setDlen v) ∨ (∃ v, t = s.setClen v) ∨
          (∃ v, t = s.setHlen v) ∨ (∃ i v, t = s.setCft i v) ∨ ∃ bytes, t = s.supply bytes)) := by
  cases op with
  | hardwareReset => cases h; exact .inl rfl
  | supply bytes =>
    simp only [hostStep, hostSupply] at h
    split at h
    · rename_i hr; cases h; exact .inr ⟨hr, .inr (.inr (.inr (.inr (.inr (.inr ⟨bytes, rfl⟩)))))⟩
    · cases h
  | write r v =>
    simp only [hostStep, hostWrite] at h
    split at h
    · rename_i hr
      refine .inr ⟨hr, ?_⟩
      cases r
      case ctrl =>
        unfold writeAtRest at h
        simp only at h
        split at h
        · simp only [hostStart, hr, Bool.not_true, Bool.false_eq_true, if_false] at h
          split at h
          · rename_i hw; cases h; exact .inr (.inl ⟨hw, rfl⟩)
          · cases h
        · cases h; exact .inl rfl
      case dlen => cases h; exact .inr (.inr (.inl ⟨v, rfl⟩))
      case clen => cases h; exact .inr (.inr (.inr (.inl ⟨v, rfl⟩)))
      case hlen => cases h; exact .inr (.inr (.inr (.inr (.inl ⟨v, rfl⟩))))
      case cft i => cases h; exact .inr (.inr (.inr (.inr (.inr (.inl ⟨i, v, rfl⟩)))))
      all_goals cases h
    · cases h

end Sys2Proof.Machine
end

