-- ==== Sys2Proof/Laws/FrontEnd.lean ====
section
/-! SUPPORT. What the front-end's operations do: header fields byte by byte, and the twelve register writes, the stream
and START as one change of the state. -/

namespace Sys2Proof.Machine

/-! ## Header fields -/

theorem field_length (F : List Byte) (a n : Nat) : (field F a n).length = min n (F.length - a) := by
  simp [field]

theorem getD_field {F : List Byte} {a n i : Nat} (hi : i < n) : (field F a n).getD i 0 = F.getD (a + i) 0 := by
  simp [field, List.getD_eq_getElem?_getD, hi]

/-- A two-byte field inside the container, byte by byte (20_memory.md R61). -/
theorem field_two {F : List Byte} {a : Nat} (h : a + 2 ≤ F.length) : field F a 2 = [F.getD a 0, F.getD (a + 1) 0] := by
  apply List.ext_getElem
  · simp [field]; omega
  · intro i h1 h2
    have hi : i < 2 := by simpa using h2
    rw [← List.getD_eq_getElem _ 0 h1, getD_field hi]
    interval_cases i <;> rfl

/-- A four-byte field inside the container, byte by byte (20_memory.md R61). -/
theorem field_four {F : List Byte} {a : Nat} (h : a + 4 ≤ F.length) :
    field F a 4 = [F.getD a 0, F.getD (a + 1) 0, F.getD (a + 2) 0, F.getD (a + 3) 0] := by
  apply List.ext_getElem
  · simp [field]; omega
  · intro i h1 h2
    have hi : i < 4 := by simpa using h2
    rw [← List.getD_eq_getElem _ 0 h1, getD_field hi]
    interval_cases i <;> rfl

@[simp] theorem readHeader_hlen (F : List Byte) (hlen : Nat) : (readHeader F hlen).hlen = BitVec.ofNat 8 hlen := rfl

@[simp] theorem readHeader_clen (F : List Byte) (hlen : Nat) :
    (readHeader F hlen).clen = BitVec.ofNat 16 (leValue (field F 5 2)) := rfl

@[simp] theorem readHeader_dlen (F : List Byte) (hlen : Nat) :
    (readHeader F hlen).dlen = BitVec.ofNat 32 (leValue (field F 16 (dlenSize hlen))) := rfl

theorem readHeader_cft (F : List Byte) (hlen : Nat) (i : PatternIndex) :
    (readHeader F hlen).cft[i] = F.getD (7 + i) 0 := by
  simp [readHeader]

/-! ## Host reads -/

/-- Everything a read of the register map answers at rest (10_state.md R33, R38). -/
theorem readRegister_atRest {s : State} (h : atRest s.st = true) (r : CReg) :
    readRegister r s = if s.holdsValue r then .next (s.registerValue r) else .refused .readNoValue := by
  simp [readRegister, h]

/-- Everything the host's interface answers at rest (43_host_frontend.md R190). -/
theorem hostReadReg_atRest {s : State} (h : atRest s.st = true) (r : CReg) :
    hostReadReg r s = if hostMayRead r s.st then readRegister r s else .refused .notHostReadable := by
  simp [hostReadReg, h]

/-! ## Loading -/

theorem hostSteps_cons {op : HostOp} {s t : State} (h : hostStep op s = .next t) (ops : List HostOp) :
    hostSteps (op :: ops) s = hostSteps ops t := by
  simp [hostSteps, h]

theorem hostSteps_append {ops : List HostOp} {s t : State} (h : hostSteps ops s = .next t) (more : List HostOp) :
    hostSteps (ops ++ more) s = hostSteps more t := by
  induction ops generalizing s with
  | nil => cases h; rfl
  | cons op ops ih =>
    simp only [List.cons_append, hostSteps] at h ⊢
    cases hop : hostStep op s with
    | next u => rw [hop] at h; exact ih h
    | fault r => rw [hop] at h; cases h
    | refused r => rw [hop] at h; cases h

theorem hostStep_setDlen {s : State} (h : atRest s.st = true) (v : Nat) :
    hostStep (.write .dlen v) s = .next (s.setDlen v) := by
  simp [hostStep, hostWrite, h, writeAtRest]

theorem hostStep_setClen {s : State} (h : atRest s.st = true) (v : Nat) :
    hostStep (.write .clen v) s = .next (s.setClen v) := by
  simp [hostStep, hostWrite, h, writeAtRest]

theorem hostStep_setHlen {s : State} (h : atRest s.st = true) (v : Nat) :
    hostStep (.write .hlen v) s = .next (s.setHlen v) := by
  simp [hostStep, hostWrite, h, writeAtRest]

theorem hostStep_setCft {s : State} (h : atRest s.st = true) (i : PatternIndex) (v : Nat) :
    hostStep (.write (.cft i) v) s = .next (s.setCft i v) := by
  simp [hostStep, hostWrite, h, writeAtRest]

theorem hostStep_supply {s : State} (h : atRest s.st = true) (bytes : List Byte) :
    hostStep (.supply bytes) s = .next (s.supply bytes) := by
  simp [hostStep, hostSupply, h]

theorem hostStep_start {s : State} (h : atRest s.st = true) (hw : s.written.all = true) :
    hostStep (.write .ctrl 1) s = .next s.start := by
  simp [hostStep, hostWrite, h, writeAtRest, hostStart, hw]

/-- The front-end after host operations that all went through. -/
theorem afterOps_next {ops : List HostOp} {s t : State} (h : hostSteps ops s = .next t) (k : State → Decompressed) :
    afterOps ops k s = .next (k t) := by
  simp [afterOps, h]

/-- `s` with the table `cft` and its marks written. -/
def State.loadTable (cft : FlagTable) (s : State) : State :=
  { s with cft := cft, written := { s.written with cft := Vector.replicate 9 true } }

/-- Nine writes, one for each entry, load the whole table. -/
theorem hostSteps_table {s : State} (h : atRest s.st = true) (cft : FlagTable) :
    hostSteps (scanOrder.map fun i => .write (.cft i) cft[i].toNat) s = .next (s.loadTable cft) := by
  simp only [scanOrder, List.map_cons, List.map_nil]
  iterate 9 rw [hostSteps_cons (hostStep_setCft (by simpa using h) _ _)]
  simp only [hostSteps, State.loadTable, State.setCft]
  congr 2
  · apply Vector.ext
    intro i hi
    interval_cases i <;> simp
  · congr 1
    apply Vector.ext
    intro i hi
    interval_cases i <;> simp

/-- The state the front-end leaves the engine in: configuration, stream, and a started run. -/
def State.loaded (h : Header) (bytes : List Byte) (s : State) : State :=
  { s with
    cft := h.cft, dlen := h.dlen, clen := h.clen, hlen := h.hlen, written := allWritten
    st := .readCommandByte, err := .none, ipos := 0, olen := 0, out := []
    inp := Memory.ofBytes 0 bytes, ilen := bytes.length }

/-- What the front-end does to an engine at rest (43_host_frontend.md R193, 70_reset_and_hazards.md R253, R255). -/
theorem hostSteps_loadOps {s : State} (hr : atRest s.st = true) (h : Header) (bytes : List Byte) :
    hostSteps (loadOps h bytes) s = .next (s.loaded h bytes) := by
  have htab := hostSteps_table (s := (s.setHlen h.hlen.toNat).setClen h.clen.toNat) (by simpa using hr) h.cft
  unfold loadOps
  rw [List.append_assoc, List.cons_append, hostSteps_cons (hostStep_setHlen hr _), List.cons_append,
    hostSteps_cons (hostStep_setClen (by simpa using hr) _), List.nil_append, hostSteps_append htab,
    hostSteps_cons (hostStep_setDlen (by simpa [State.loadTable] using hr) _),
    hostSteps_cons (hostStep_supply (by simpa [State.loadTable] using hr) _),
    hostSteps_cons (hostStep_start (by simpa [State.loadTable] using hr) (by simp [State.loadTable, Written.all]))]
  simp [hostSteps, State.loaded, State.loadTable, State.start, State.supply, State.setDlen, State.setClen,
    State.setHlen, allWritten]

end Sys2Proof.Machine
end

