-- ==== Sys2Proof/Laws/PerInstr.lean ====
section
/-! SUPPORT. Statements made for every constructor of `Instr`, one lemma per constructor. -/

namespace Sys2Proof.Laws

/-- The encoding of a command has the length 30_encoding.md R94 gives it. -/
def EncodeLength.Statement (i : Instr) : Prop := (encode i).length = i.length

theorem EncodeLength.cmd (c : Byte) : EncodeLength.Statement (.cmd c) := rfl
theorem EncodeLength.lit (d : Byte) : EncodeLength.Statement (.lit d) := rfl
theorem EncodeLength.nyb0 (h l : Nibble) : EncodeLength.Statement (.nyb0 h l) := rfl
theorem EncodeLength.nyb1 (h l : Nibble) : EncodeLength.Statement (.nyb1 h l) := rfl
theorem EncodeLength.nyb2 (h l : Nibble) : EncodeLength.Statement (.nyb2 h l) := rfl
theorem EncodeLength.nyb3 (h l : Nibble) : EncodeLength.Statement (.nyb3 h l) := rfl
theorem EncodeLength.nyb4 (h l : Nibble) : EncodeLength.Statement (.nyb4 h l) := rfl
theorem EncodeLength.nyb5 (h l : Nibble) : EncodeLength.Statement (.nyb5 h l) := rfl
theorem EncodeLength.nyb6 (h l : Nibble) : EncodeLength.Statement (.nyb6 h l) := rfl
theorem EncodeLength.nyb7 (h l : Nibble) : EncodeLength.Statement (.nyb7 h l) := rfl
theorem EncodeLength.nyb8 (h l : Nibble) : EncodeLength.Statement (.nyb8 h l) := rfl
theorem EncodeLength.copy (h l : Nibble) (o : Byte) : EncodeLength.Statement (.copy h l o) := rfl

end Sys2Proof.Laws
end

