-- ==== Sys2Proof/Laws/Runs.lean ====
section
/-! SUPPORT. Facts about a run in progress: appending below the declared length, the memories, what a fetch answers in
each slot, and a copy whose source is in range. -/

namespace Sys2Proof.Machine

/-! ## Below the declared length -/

/-- Where a byte may be appended `OLEN` does not wrap (10_state.md R27). -/
theorem State.canAppend_succ {s : State} (h : s.canAppend) : (s.olen + 1).toNat = s.olen.toNat + 1 := by
  have hb := s.dlen.isLt
  rcases h with h | ⟨_, h⟩
  · have hlt : s.olen.toNat < s.dlen.toNat := h
    rw [BitVec.toNat_add, show (1 : BitVec 32).toNat = 1 from rfl, Nat.mod_eq_of_lt (by omega)]
  · rw [h]; rfl

/-- Where a byte may be appended, `OLEN` is at most `max(DLEN, 1) - 1` (10_state.md R37). -/
theorem State.canAppend_lt {s : State} (h : s.canAppend) : s.olen.toNat < max s.dlen.toNat 1 := by
  rcases h with h | ⟨_, h⟩
  · have hlt : s.olen.toNat < s.dlen.toNat := h
    omega
  · rw [h]; simp

/-- At the length stop `OLEN` is `max(DLEN, 1)` (10_state.md R37). -/
theorem State.olen_at_stop {s : State} (h : s.canAppend) (hd : s.dlen ≤ s.olen + 1) :
    (s.olen + 1).toNat = max s.dlen.toNat 1 := by
  have h1 := State.canAppend_succ h
  have h2 := State.canAppend_lt h
  have h3 : s.dlen.toNat ≤ (s.olen + 1).toNat := hd
  omega

/-- After an append that does not stop the run another byte may be appended (42_decode_loop.md R163). -/
theorem State.canAppend_append {s : State} (b : Byte) (hd : ¬ s.dlen ≤ s.olen + 1) : (s.append b).canAppend :=
  .inl (BitVec.not_le.mp hd)

/-! ## The memories -/

/-- The memory invariant is a property of the two memories and their extents. -/
theorem State.MemoryInv.congr {s t : State} (h : s.MemoryInv) (ho : t.out = s.out) (hl : t.olen = s.olen)
    (hi : t.inp = s.inp) (hn : t.ilen = s.ilen) : t.MemoryInv :=
  ⟨by rw [ho]; exact h.outCanonical, by rw [ho, hl]; exact h.outExtent, by rw [hi]; exact h.inCanonical,
    by rw [hi, hn]; exact h.inExtent⟩

/-- An append below the declared length keeps the memory invariant (20_memory.md R69). -/
theorem State.MemoryInv.append {s : State} (h : s.MemoryInv) (hc : s.canAppend) (b : Byte) : (s.append b).MemoryInv := by
  have hl := State.canAppend_succ hc
  refine ⟨?_, ?_, h.inCanonical, h.inExtent⟩
  · simpa using Memory.wf_write _ _ h.outCanonical
  · simp only [State.append_out, State.append_olen, hl]
    exact Memory.below_write (by omega) _ (Memory.below_mono (by omega) h.outExtent)

/-! ## What a fetch answers -/

/-- A fetch in `ReadCommandByte` answers `CMD` with the byte at `IPOS` (30_encoding.md R95). -/
theorem State.fetch_command {s : State} {i : Instr} (h : s.fetch .command = .ok i) :
    s.ipos < s.ilen ∧ i = .cmd (s.inp.read s.ipos) := by
  obtain ⟨rest, hd⟩ := State.fetch_eq_ok h
  rw [State.fetchBytes_eq] at hd
  split at hd
  · cases hd; exact ⟨by omega, rfl⟩
  · split at hd <;> cases hd
    exact ⟨by omega, rfl⟩

/-- A fetch at a literal's position answers `LIT` with the byte at `IPOS` (30_encoding.md R95). -/
theorem State.fetch_literal {s : State} {i : Instr} (h : s.fetch .literal = .ok i) :
    s.ipos < s.ilen ∧ i = .lit (s.inp.read s.ipos) := by
  obtain ⟨rest, hd⟩ := State.fetch_eq_ok h
  rw [State.fetchBytes_eq] at hd
  split at hd
  · cases hd; exact ⟨by omega, rfl⟩
  · split at hd <;> cases hd
    exact ⟨by omega, rfl⟩

/-- A fetch at a mode byte's position answers the nybble-pattern command the table selects, or a `COPY` whose two bytes
are both there (30_encoding.md R95). -/
theorem State.fetch_mode {s : State} {i : Instr} (h : s.fetch .mode = .ok i) :
    (s.ipos < s.ilen ∧ ∃ j, find s.cft (hi (s.inp.read s.ipos)) = some j ∧
      i = nybbleInstr j (hi (s.inp.read s.ipos)) (lo (s.inp.read s.ipos))) ∨
    (s.ipos + 1 < s.ilen ∧ find s.cft (hi (s.inp.read s.ipos)) = none ∧
      i = .copy (hi (s.inp.read s.ipos)) (lo (s.inp.read s.ipos)) (s.inp.read (s.ipos + 1))) := by
  obtain ⟨rest, hd⟩ := State.fetch_eq_ok h
  rw [State.fetchBytes_eq] at hd
  cases hf : find s.cft (hi (s.inp.read s.ipos)) with
  | some j =>
    left
    split at hd
    · rw [decode_mode_found hf] at hd; cases hd; exact ⟨by omega, j, rfl, rfl⟩
    · split at hd
      · rw [decode_mode_found hf] at hd; cases hd; exact ⟨by omega, j, rfl, rfl⟩
      · cases hd
  | none =>
    right
    split at hd
    · rename_i hl; rw [decode_mode_copy hf] at hd; cases hd; exact ⟨hl, rfl, rfl⟩
    · split at hd
      · rw [decode_mode_short hf] at hd; cases hd
      · cases hd

theorem nybbleInstr_ne_cmd (j : PatternIndex) (h l : Nibble) (c : Byte) : nybbleInstr j h l ≠ .cmd c := by
  intro hc
  have := patternIndex_nybbleInstr j h l
  rw [hc] at this
  cases this

/-- A fetch at an item's position never answers `CMD` (30_encoding.md R95). -/
theorem State.fetch_item {s : State} {slot : Slot} (hs : slot ≠ .command) {i : Instr} (h : s.fetch slot = .ok i) :
    ∀ c, i ≠ .cmd c := by
  intro c
  cases slot with
  | command => exact absurd rfl hs
  | literal => rw [(State.fetch_literal h).2]; exact fun hc => Instr.noConfusion hc
  | mode =>
    rcases State.fetch_mode h with ⟨_, j, _, rfl⟩ | ⟨_, _, rfl⟩
    · exact nybbleInstr_ne_cmd j _ _ c
    · exact fun hc => Instr.noConfusion hc

/-- The meaning of a nybble-pattern command is the common operation at its index (40_dispatch_nybble_pattern.md R136). -/
theorem exec_nybbleInstr (j : PatternIndex) (h l : Nibble) (s : State) : exec (nybbleInstr j h l) s = .next (s.nybble j l) := by
  match j with
  | 0 => rfl
  | 1 => rfl
  | 2 => rfl
  | 3 => rfl
  | 4 => rfl
  | 5 => rfl
  | 6 => rfl
  | 7 => rfl
  | 8 => rfl

/-! ## Copies in range -/

/-- A copy whose source address is in range never fails: it goes on with room for a byte, or it ends at the length stop
(41_backref_copy.md R143). -/
theorem State.copyLoop_inRange (n : Nat) (a : Int) (s : State) (hc : s.canAppend) (h0 : 0 ≤ a) (ha : a < s.olen.toNat) :
    (s.copyLoop n a).At State.canAppend (fun t => t.st = .done) := by
  induction n generalizing a s with
  | zero => exact hc
  | succ n ih =>
    have hl := State.canAppend_succ hc
    have hm : s.memRead a = some (s.out.read a.toNat) := by rw [State.memRead, if_pos ⟨h0, ha⟩]
    rw [State.copyLoop_succ hm, State.emit_eq]
    split
    · exact rfl
    · rename_i h
      refine ih (a + 1) _ (State.canAppend_append _ h) (by omega) ?_
      simp only [State.append_olen, hl]
      omega

theorem length_nybbleInstr (j : PatternIndex) (h l : Nibble) : (nybbleInstr j h l).length = 1 := by
  match j with
  | 0 => rfl
  | 1 => rfl
  | 2 => rfl
  | 3 => rfl
  | 4 => rfl
  | 5 => rfl
  | 6 => rfl
  | 7 => rfl
  | 8 => rfl

/-! ## Changes of state that no item command notices -/

/-- A change of state that every operation of an item command commutes with: it touches nothing they read, and nothing
they write but what it leaves to them. -/
structure CommutesWithOps (f : State → State) : Prop where
  advance : ∀ n s, (f s).advance n = f (s.advance n)
  raise : ∀ c s, (f s).raise c = f (s.raise c)
  append : ∀ b s, (f s).append b = f (s.append b)
  nextBit : ∀ s, (f s).nextBit = f s.nextBit
  goto : ∀ e s, (f s).goto e = f (s.goto e)
  olen : ∀ s, (f s).olen = s.olen
  dlen : ∀ s, (f s).dlen = s.dlen
  out : ∀ s, (f s).out = s.out

/-- A change of state applied to where a command stands. -/
def Progress.map (f : State → State) : Progress → Progress
  | .running s => .running (f s)
  | .ended s => .ended (f s)

variable {f : State → State}

theorem Progress.map_andThen {p : Progress} {g : State → Progress} (hg : ∀ u, g (f u) = (g u).map f) :
    (p.map f).andThen g = (p.andThen g).map f := by
  cases p with
  | running s => exact hg s
  | ended s => rfl

theorem CommutesWithOps.emit (h : CommutesWithOps f) (b : Byte) (s : State) : (f s).emit b = (s.emit b).map f := by
  rw [State.emit_eq, State.emit_eq, h.dlen, h.olen, h.append]
  split
  · simp only [Progress.map, h.goto]
  · rfl

theorem CommutesWithOps.finish (h : CommutesWithOps f) (p : Progress) : (p.map f).finish = f p.finish := by
  cases p with
  | running s => exact h.nextBit s
  | ended s => rfl

theorem CommutesWithOps.copyLoop (h : CommutesWithOps f) (n : Nat) (a : Int) (s : State) :
    (f s).copyLoop n a = (s.copyLoop n a).map f := by
  induction n generalizing a s with
  | zero => rfl
  | succ n ih =>
    have hm : (f s).memRead a = s.memRead a := by unfold State.memRead; rw [h.olen, h.out]
    cases hr : s.memRead a with
    | none => rw [State.copyLoop_out hr, State.copyLoop_out (hm.trans hr), h.raise]; rfl
    | some b =>
      rw [State.copyLoop_succ hr, State.copyLoop_succ (hm.trans hr), h.emit]
      exact Progress.map_andThen fun u => ih (a + 1) u

theorem CommutesWithOps.nybble (h : CommutesWithOps f) {s : State} (hl : s.ipos < s.ilen) (hl' : (f s).ipos < (f s).ilen)
    (i : PatternIndex) (l : Nibble) : (f s).nybble i l = f (s.nybble i l) := by
  unfold State.nybble
  rw [State.readThen_of_lt hl, State.readThen_of_lt hl', h.advance]
  cases pattern i l with
  | none => exact h.raise _ _
  | some p =>
    show (((f _).emit p.1).andThen (State.emit p.2)).finish = _
    rw [h.emit, Progress.map_andThen fun u => h.emit p.2 u, h.finish]

/-- An item command whose bytes are all there, on both sides, commutes with such a change. -/
theorem CommutesWithOps.exec (h : CommutesWithOps f) {i : Instr} (hi : ∀ c, i ≠ .cmd c) {s : State}
    (hl : s.ipos + i.length ≤ s.ilen) (hl' : (f s).ipos + i.length ≤ (f s).ilen) :
    exec i (f s) = mapNext f (exec i s) := by
  cases i
  case cmd c => exact absurd rfl (hi c)
  case lit d =>
    refine congrArg Host.Outcome.next ?_
    rw [State.readThen_of_lt hl, State.readThen_of_lt hl', h.advance, h.emit, h.finish]
  case copy hn l o =>
    refine congrArg Host.Outcome.next ?_
    rw [State.readThen_readThen hl, State.readThen_readThen hl', h.advance, h.copyLoop, h.finish]
    unfold State.copySource
    rw [h.olen]
  all_goals exact congrArg Host.Outcome.next (h.nybble hl hl' _ _)

end Sys2Proof.Machine
end

