-- ==== Sys2Proof/Tests/Slice0.lean ====
section
/-! SUPPORT. Tests on fixed values, expected results from 95_test_vectors.md and the rules named, and for every statement
with hypotheses a state and operands that meet them (theorems `wit_...`). -/

namespace Sys2Proof.Tests

open Sys2Proof.Machine

/-! ## Helpers -/

/-- T19, the table 01 .. 09 of 95_test_vectors.md. -/
def t19 : FlagTable := #v[1, 2, 3, 4, 5, 6, 7, 8, 9]

/-- The table of program P4, with duplicates and an entry of 16. -/
def tP4 : FlagTable := #v[0x0F, 0x0E, 0x0F, 0x10, 0x00, 0x0D, 0x0C, 0x0B, 0x0A]

/-- A small state under T19: the engine in `st` at bit `k` of `cmd`, output `os`, input `is` read up to `p`. -/
def small (st : EngineState) (cmd : Byte) (k : BitVec 3) (dlen : BitVec 32) (os is : List Byte) (p : Nat) : State where
  cft := t19
  dlen := dlen
  clen := 24
  hlen := 20
  written := allWritten
  st := st
  err := .none
  ipos := p
  olen := BitVec.ofNat 32 os.length
  cmd := cmd
  k := k
  out := Memory.ofBytes 0 os
  inp := Memory.ofBytes 0 is
  ilen := is.length

/-- `ST`, `ERR`, `IPOS`, `K` and the output after an outcome; `none` after a fault or a refusal. -/
def seen (o : Host.Outcome State Fault Refusal) : Option (EngineState × FaultCode × Nat × BitVec 3 × List Byte) :=
  match o with
  | .next s => some (s.st, s.err, s.ipos, s.k, s.outBytes)
  | .fault _ => none
  | .refused _ => none

/-! ## WellFormed refuses what may not stand at a position -/

theorem test_wf_accepts : (Instr.nyb0 1 5).wellFormed .mode t19 = true ∧ (Instr.copy 0 15 0xFF).wellFormed .mode t19 = true ∧
    (Instr.cmd 0x80).wellFormed .command t19 = true ∧ (Instr.lit 0xAB).wellFormed .literal t19 = true := by decide

theorem test_wf_refuses_wrong_slot : (Instr.cmd 0x80).wellFormed .literal t19 = false ∧
    (Instr.lit 0xAB).wellFormed .mode t19 = false ∧ (Instr.nyb0 1 5).wellFormed .command t19 = false ∧
    (Instr.copy 0 15 0xFF).wellFormed .literal t19 = false := by decide

theorem test_wf_refuses_wrong_index : (Instr.nyb1 1 5).wellFormed .mode t19 = false := by decide

theorem test_wf_refuses_unmatched_pattern : (Instr.nyb0 0 5).wellFormed .mode t19 = false := by decide

theorem test_wf_refuses_matched_copy : (Instr.copy 9 15 0xFF).wellFormed .mode t19 = false := by decide

/-- A duplicate entry: index 2 can never be selected (30_encoding.md R97). -/
theorem test_wf_refuses_shadowed_index : (Instr.nyb2 15 3).wellFormed .mode tP4 = false := by decide

/-! ## Decoding: words written out from the formats -/

/-- R91: `f0` is bit 7; the word of P2's command byte. -/
theorem test_decode_cmd : decode .command t19 [0b10000000] = .ok (.cmd 0x80, []) := by decide

/-- R92. -/
theorem test_decode_lit : decode .literal t19 [0b10101011, 0x0F] = .ok (.lit 0xAB, [0x0F]) := by decide

/-- R93, words of P3: `h` in bits 7..4, `l` in bits 3..0. -/
theorem test_decode_nyb_low : decode .mode t19 [0b00010101] = .ok (.nyb0 1 5, []) ∧
    decode .mode t19 [0b00100101] = .ok (.nyb1 2 5, []) ∧ decode .mode t19 [0b00110101] = .ok (.nyb2 3 5, []) ∧
    decode .mode t19 [0b01000101] = .ok (.nyb3 4 5, []) ∧ decode .mode t19 [0b01010101] = .ok (.nyb4 5 5, []) := by decide

theorem test_decode_nyb_high : decode .mode t19 [0b01100101] = .ok (.nyb5 6 5, []) ∧
    decode .mode t19 [0b01110101] = .ok (.nyb6 7 5, []) ∧ decode .mode t19 [0b10000101] = .ok (.nyb7 8 5, []) ∧
    decode .mode t19 [0b10010101] = .ok (.nyb8 9 5, []) := by decide

/-- P4: F3, 04, E0 and A9 under its table. -/
theorem test_decode_nyb_P4 : decode .mode tP4 [0xF3] = .ok (.nyb0 15 3, []) ∧ decode .mode tP4 [0x04] = .ok (.nyb4 0 4, []) ∧
    decode .mode tP4 [0xE0] = .ok (.nyb1 14 0, []) ∧ decode .mode tP4 [0xA9] = .ok (.nyb8 10 9, []) := by decide

/-- R96: `h` in bits 7..4 and `l` in bits 3..0 of byte 0, `o` in byte 1 (P2's `COPY 3, 1`, 4.3's A8 80). -/
theorem test_decode_copy : decode .mode t19 [0b00001111, 0b11111110, 0x01] = .ok (.copy 0 15 0xFE, [0x01]) ∧
    decode .mode t19 [0xA8, 0x80] = .ok (.copy 10 8 0x80, []) := by decide

theorem test_decode_missing : decode .command t19 [] = .error .noFirstByte ∧ decode .mode t19 [0x0F] = .error .noOffsetByte ∧
    decode .mode t19 [0x15] = .ok (.nyb0 1 5, []) := by decide

theorem test_encode : encode (.cmd 0xC8) = [0xC8] ∧ encode (.lit 0x7E) = [0x7E] ∧ encode (.nyb8 9 5) = [0x95] ∧
    encode (.copy 5 15 0xE4) = [0x5F, 0xE4] := by decide

/-- Bare words of the opcode table: the position and table of log 14. A 16-bit word has its first byte in the high half. -/
theorem test_table_words : decodeTableWord 8 0xC8 = some (.cmd 0xC8) ∧ decodeTableWord 8 0x9B = some (.lit 0x9B) ∧
    decodeTableWord 8 0x05 = some (.nyb0 0 5) ∧ decodeTableWord 8 0x85 = some (.nyb8 8 5) ∧
    decodeTableWord 16 0x0FFE = some (.copy 0 15 0xFE) := by decide

/-! ## The lookup: 95_test_vectors.md 4.1 -/

theorem test_find_T19 : find t19 1 = some 0 ∧ find t19 9 = some 8 ∧ find t19 0 = none ∧ find t19 15 = none := by decide

theorem test_find_zero_table : find (Vector.replicate 9 0) 0 = some 0 ∧ find (Vector.replicate 9 0) 1 = none := by decide

theorem test_find_duplicates : find tP4 15 = some 0 ∧ find tP4 0 = some 4 ∧ find tP4 1 = none ∧ find tP4 10 = some 8 := by
  decide

theorem test_find_large_entries : ∀ h : Nibble, find (Vector.replicate 9 0xFF) h = none := by decide

/-! ## Patterns: 95_test_vectors.md section 3 -/

/-- The sixteen cells of row 1 and of row 5 under `mod16`, as 16-bit numbers `B0 B1`. -/
def row (i : PatternIndex) : List (Option (Byte × Byte)) := (List.range 16).map fun l => nybMod16 i (BitVec.ofNat 4 l)

theorem test_pattern_row_1 : row 1 = [(0x01, 0x11), (0x12, 0x22), (0x23, 0x33), (0x34, 0x44), (0x45, 0x55), (0x56, 0x66),
    (0x67, 0x77), (0x78, 0x88), (0x89, 0x99), (0x9A, 0xAA), (0xAB, 0xBB), (0xBC, 0xCC), (0xCD, 0xDD), (0xDE, 0xEE),
    (0xEF, 0xFF), (0xF0, 0x00)].map some := by decide

theorem test_pattern_row_5 : row 5 = [(0x0F, 0xFF), (0x10, 0x00), (0x21, 0x11), (0x32, 0x22), (0x43, 0x33), (0x54, 0x44),
    (0x65, 0x55), (0x76, 0x66), (0x87, 0x77), (0x98, 0x88), (0xA9, 0x99), (0xBA, 0xAA), (0xCB, 0xBB), (0xDC, 0xCC),
    (0xED, 0xDD), (0xFE, 0xEE)].map some := by decide

/-- Column 1 and column E of the table, where no cell is open. -/
theorem test_pattern_columns :
    scanOrder.map (fun i => nybMod16 i 1) = [(0x11, 0x11), (0x12, 0x22), (0x10, 0x11), (0x11, 0x01), (0x11, 0x10),
      (0x10, 0x00), (0x12, 0x11), (0x11, 0x21), (0x11, 0x12)].map some ∧
    scanOrder.map (fun i => nybMod16 i 14) = [(0xEE, 0xEE), (0xEF, 0xFF), (0xED, 0xEE), (0xEE, 0xDE), (0xEE, 0xED),
      (0xED, 0xDD), (0xEF, 0xEE), (0xEE, 0xFE), (0xEE, 0xEF)].map some := by decide

/-- The eight open cells under `u8_or`. -/
theorem test_pattern_u8_or : nybU8Or 1 15 = some (0xF0, 0x10) ∧ nybU8Or 2 0 = some (0xFF, 0x00) ∧
    nybU8Or 3 0 = some (0x00, 0xF0) ∧ nybU8Or 4 0 = some (0x00, 0xFF) ∧ nybU8Or 5 0 = some (0xFF, 0xFF) ∧
    nybU8Or 6 15 = some (0xF0, 0xFF) ∧ nybU8Or 7 15 = some (0xFF, 0x0F) ∧ nybU8Or 8 15 = some (0xFF, 0xF0) := by decide

/-! ## COPY operands: 95_test_vectors.md 4.3 -/

theorem test_copy_operands : copyLength 0 = 3 ∧ copyLength 15 = 18 ∧ copyLength 10 = 13 ∧
    copyOffset 0 0 = -4096 ∧ copyOffset 15 0xFF = -1 ∧ copyOffset 8 0x80 = -1920 ∧ copyOffset 15 0xE4 = -28 ∧
    copyOffset 0 0xFF = -3841 ∧ copyDistance 15 0x00 = 256 ∧ copyDistance 0 0 = 4096 := by decide

/-! ## One step of each command -/

/-- P2's first step. -/
theorem test_cmd : seen (step (small .readCommandByte 0 5 4 [] [0x80, 0xAB, 0x0F, 0xFF] 0)) =
    some (.processBit, .none, 1, 0, []) := by decide

/-- 4.2: end of the stream at the command fetch after item 7. -/
theorem test_cmd_missing : seen (step (small .readCommandByte 0xFF 7 9 [1, 2] [0xFF, 1, 2] 3)) =
    some (.failed, .ioError, 3, 7, [1, 2]) := by decide

/-- P2's second step: the literal, then the next bit. -/
theorem test_lit : seen (step (small .processBit 0x80 0 4 [] [0x80, 0xAB, 0x0F, 0xFF] 1)) =
    some (.processBit, .none, 2, 1, [0xAB]) := by decide

/-- 4.2: a literal whose high nibble is in the table is still a literal, and stops the run at `DLEN`. -/
theorem test_lit_stops : seen (step (small .processBit 0xFF 0 1 [] [0xFF, 0x15] 1)) =
    some (.done, .none, 2, 0, [0x15]) := by decide

/-- 4.6: stop after the first byte of a pair. -/
theorem test_nyb0_stops : seen (step (small .processBit 0x00 0 1 [] [0x00, 0x15] 1)) =
    some (.done, .none, 2, 0, [0x55]) := by decide

/-- P3, the pairs of group 1 and the last item. -/
theorem test_nyb0 : seen (step (small .processBit 0 0 17 [] [0, 0x15] 1)) = some (.processBit, .none, 2, 1, [0x55, 0x55]) := by
  decide

theorem test_nyb1 : seen (step (small .processBit 0 1 17 [] [0, 0x25] 1)) = some (.processBit, .none, 2, 2, [0x56, 0x66]) := by
  decide

theorem test_nyb2 : seen (step (small .processBit 0 2 17 [] [0, 0x35] 1)) = some (.processBit, .none, 2, 3, [0x54, 0x55]) := by
  decide

theorem test_nyb3 : seen (step (small .processBit 0 3 17 [] [0, 0x45] 1)) = some (.processBit, .none, 2, 4, [0x55, 0x45]) := by
  decide

theorem test_nyb4 : seen (step (small .processBit 0 4 17 [] [0, 0x55] 1)) = some (.processBit, .none, 2, 5, [0x55, 0x54]) := by
  decide

theorem test_nyb5 : seen (step (small .processBit 0 5 17 [] [0, 0x65] 1)) = some (.processBit, .none, 2, 6, [0x54, 0x44]) := by
  decide

theorem test_nyb6 : seen (step (small .processBit 0 6 17 [] [0, 0x75] 1)) = some (.processBit, .none, 2, 7, [0x56, 0x55]) := by
  decide

theorem test_nyb7_last_bit : seen (step (small .processBit 0 7 17 [] [0, 0x85] 1)) =
    some (.readCommandByte, .none, 2, 7, [0x55, 0x65]) := by decide

theorem test_nyb8 : seen (step (small .processBit 0 0 17 [] [0, 0x95] 1)) = some (.processBit, .none, 2, 1, [0x55, 0x56]) := by
  decide

/-- P2's third step: each byte read was written one iteration earlier. -/
theorem test_copy_overlap : seen (step (small .processBit 0x80 1 4 [0xAB] [0x80, 0xAB, 0x0F, 0xFF] 2)) =
    some (.done, .none, 4, 1, [0xAB, 0xAB, 0xAB, 0xAB]) := by decide

/-- 4.7 F1: distance 3 with two bytes of output. -/
theorem test_copy_before_start : seen (step (small .processBit 0xC0 2 5 [1, 2] [0xC0, 1, 2, 0x0F, 0xFD] 3)) =
    some (.failed, .backRefOutOfRange, 5, 2, [1, 2]) := by decide

/-- 4.7 F6: the missing offset byte comes before the range fault. -/
theorem test_copy_missing_offset : seen (step (small .processBit 0x00 0 1 [] [0x00, 0x0F] 1)) =
    some (.failed, .ioError, 2, 0, []) := by decide

/-- P2's final check. -/
theorem test_done : seen (step (small .done 0x80 1 4 [0xAB] [0x80, 0xAB, 0x0F, 0xFF] 4)) =
    some (.success, .none, 4, 1, [0xAB]) := by decide

/-- 4.7 F4 the other way round: one byte more consumed than `CLEN` accounts for. -/
theorem test_done_mismatch : seen (step (small .done 0x80 1 4 [0xAB] [0x80, 0xAB, 0x0F, 0xFF, 0] 5)) =
    some (.failed, .invalidDecompressedLength, 5, 1, [0xAB]) := by decide

theorem test_rest : step State.reset = .refused .noEngineStep ∧
    step (State.raise .ioError State.reset) = .fault (.runFailed .ioError) := ⟨rfl, rfl⟩

/-! ## Memory, the bare words of the table, the host -/

theorem test_memory_canonical : Memory.ofBytes 0 [0, 7, 0, 9] = [(1, 7), (3, 9)] ∧
    Memory.write [(1, 7), (3, 9)] 3 0 = [(1, 7)] ∧ Memory.write [(3, 9)] 1 7 = [(1, 7), (3, 9)] ∧
    Memory.wf [(3, 9), (1, 7)] = false ∧ Memory.wf [(1, 0)] = false ∧ State.reset.out.wf = true := by decide

theorem test_with_fetch_word : step (State.reset.withFetchWord 8 0xC8) = exec (.cmd 0xC8) (State.reset.withFetchWord 8 0xC8) ∧
    step (State.reset.withFetchWord 8 0x85) = exec (.nyb8 8 5) (State.reset.withFetchWord 8 0x85) ∧
    step (State.reset.withFetchWord 16 0x0FFF) = exec (.copy 0 15 0xFF) (State.reset.withFetchWord 16 0x0FFF) :=
  ⟨rfl, rfl, rfl⟩

theorem test_cft_write_truncates : (State.setCft 3 0x1FF State.reset).cft = #v[0, 0, 0, 0xFF, 0, 0, 0, 0, 0] := by decide

theorem test_register_numbers : (List.range 17).map (fun n => (CReg.ofNumber n).map CReg.number) =
    (List.range 17).map some := by decide

theorem test_register_reads : readRegister .dlen State.reset = .refused .readNoValue ∧
    readRegister .dlen (State.setDlen 0x1FFFFFFFF State.reset) = .next 0xFFFFFFFF ∧
    hostReadReg .dlen (State.setDlen 1 State.reset) = .refused .notHostReadable ∧
    hostReadReg .err (State.raise .backRefOutOfRange State.reset) = .next 5 ∧
    hostReadReg .olen State.reset = .refused .notHostReadable := ⟨rfl, rfl, rfl, rfl, rfl⟩

theorem test_start_refused_after_reset : hostWrite .ctrl 1 State.reset = .refused .startUnwritten := rfl

/-! ## The front-end and the assembler -/

/-- E1: the naive container of the byte 41. -/
theorem test_naive_container : compressNaive [0x41] = [0x50, 0x4B, 0x44, 0x50, 0x58, 0x16, 0, 0, 0, 0, 0, 0, 0, 0, 0, 0,
    1, 0, 0, 0, 0xFF, 0x41, 0xAA, 0xAA, 0xAA, 0xAA, 0xAA, 0xAA, 0xAA, 0xAA, 0xAA, 0xAA] := by decide

/-- E4: the Variant-B header of P3. -/
theorem test_variant_b : parseHeader [0x41, 0x54, 0x34, 0x50, 0x58, 0x1D, 0, 1, 2, 3, 4, 5, 6, 7, 8, 9, 0x11, 0] =
    .ok { hlen := 18, clen := 29, cft := t19, dlen := 17 } := by decide

/-- E5: short containers and an unknown magic. -/
theorem test_bad_headers : parseHeader [0x50, 0x4B, 0x44, 0x50] = .error (.code .ioError) ∧
    parseHeader [0x50, 0x4B, 0x44, 0x50, 0x58, 0x16, 0, 0, 0, 0] = .error (.code .ioError) ∧
    parseHeader [0x51, 0x4B, 0x44, 0x50, 0x58] = .error (.invalidHeaderMagic [0x51, 0x4B, 0x44, 0x50, 0x58]) := by decide

/-- R193: `HLEN <- 20` stands before the test of the container's length (E5's second container). -/
theorem test_truncated_header : decompressWith .toEnd [0x50, 0x4B, 0x44, 0x50, 0x58, 0x16, 0, 0, 0, 0] State.reset =
    .next (State.setHlen 20 State.reset, .error (.code .ioError)) := rfl

/-- Two lines of P4 and the pseudo-instruction of P1. -/
theorem test_assembler : asmCopy tP4 12 3 = some [0x9F, 0xFD] ∧ asmNyb tP4 4 4 = some [0x04] ∧ asmNyb tP4 2 4 = none ∧
    asmNyb tP4 3 4 = none ∧ asmCopy tP4 3 1 = none ∧ asmLit8 [0x41] = some [0xFF, 0x41] := by decide

/-! ## Witnesses: what the hypotheses of the statements ask for, met together -/

/-- P2 at its command fetch. -/
def atFetch : State := small .readCommandByte 0 0 4 [] [0x80, 0xAB, 0x0F, 0xFF] 0

/-- P2 at its literal. -/
def atLit : State := small .processBit 0x80 0 4 [] [0x80, 0xAB, 0x0F, 0xFF] 1

/-- P2 at its copy, distance 1 with one byte of output. -/
def atCopy : State := small .processBit 0x80 1 4 [0xAB] [0x80, 0xAB, 0x0F, 0xFF] 2

/-- The pair of 4.6 that stops after its first byte: one more byte admitted, one byte of the stream left. -/
def atPair : State := small .processBit 0x00 0 1 [] [0x00, 0x15] 1

/-- A mode byte that selects `COPY` as the last byte of the stream (4.7 F6). -/
def atLastMode : State := small .processBit 0x00 0 1 [] [0x00, 0x0F] 1

/-- The stream has ended at a command bit. -/
def atEnd : State := small .processBit 0x00 0 2 [] [0x00] 1

/-- 4.7 F1 at its copy: distance 3 with two bytes of output. -/
def atFarCopy : State := small .processBit 0xC0 2 5 [1, 2] [0xC0, 1, 2, 0x0F, 0xFD] 3

/-- P2 before its final check. -/
def atDone : State := small .done 0x80 1 4 [0xAB, 0xAB, 0xAB, 0xAB] [0x80, 0xAB, 0x0F, 0xFF] 4

/-- P2 after its final check. -/
def atSuccess : State := { atDone with st := .success }

theorem wit_DecodeOfEncode : (Instr.nyb8 9 5).wellFormed .mode t19 = true ∧ (Instr.copy 15 0 0).wellFormed .mode t19 = true ∧
    (Instr.cmd 0xFF).wellFormed .command t19 = true ∧ (Instr.lit 0).wellFormed .literal t19 = true := by decide

theorem wit_EncodeOfDecode : decode .mode t19 [0x0F, 0xFF, 0x99] = .ok (.copy 0 15 0xFF, [0x99]) := rfl

theorem wit_DecoderRejectsOnlyMissingBytes : decode .literal t19 [] = .error .noFirstByte ∧
    decode .mode t19 [0x0F] = .error .noOffsetByte ∧ find t19 (hi 0x0F) = none := ⟨rfl, rfl, rfl⟩

theorem wit_SelectionByPositionAndTable : msb 0x80 0 = true ∧ msb 0x7F 0 = false ∧ msb 0x01 7 = true ∧
    find t19 (hi 0x95) = some 8 ∧ find t19 (hi 0x0F) = none := by decide

theorem wit_LargeEntriesNeverMatch : 16 ≤ tP4[(3 : PatternIndex)].toNat ∧ 16 ≤ (16 : Byte).toNat ∧ 16 ≤ (255 : Byte).toNat := by
  decide

theorem wit_PatternClosedForms : (14 : Nibble) ≠ 15 ∧ (1 : Nibble) ≠ 0 ∧ (0 : Nibble) ≠ 15 ∧ (15 : Nibble) ≠ 0 := by decide

theorem wit_EightPairsAreOpen : (nibbles 1 14).fits = true ∧ (nibbles 5 1).fits = true ∧
    (nibbles 2 15).fits = true ∧ (nibbles 8 0).fits = true := by decide

theorem wit_InReadAdvancesOrFails : atEnd.ilen ≤ atEnd.ipos ∧ atPair.ipos + 1 = atPair.ilen := by decide

theorem atCopy_memory : atCopy.MemoryInv := ⟨by decide, by decide, by decide, by decide⟩

theorem atPair_memory : atPair.MemoryInv := ⟨by decide, by decide, by decide, by decide⟩

theorem atDone_memory : atDone.MemoryInv := ⟨by decide, by decide, by decide, by decide⟩

theorem wit_AppendedByteReadsBack : atCopy.MemoryInv ∧ atCopy.canAppend ∧
    State.MemoryInv { atPair with dlen := 0 } ∧ State.canAppend { atPair with dlen := 0 } :=
  ⟨atCopy_memory, by decide, ⟨by decide, by decide, by decide, by decide⟩, by decide⟩

theorem wit_RingSlotIsDistanceBack : copyDistance 0 0 ≤ 4096 ∧ copyDistance 15 0xFF ≤ 1 := by decide

theorem wit_CmdLatchesEightBits : atFetch.ipos < atFetch.ilen ∧ atPair.ipos < atPair.ilen := by decide

theorem wit_LitAppendsItsByte : atPair.ipos < atPair.ilen ∧ atPair.dlen ≤ atPair.olen + 1 ∧
    atLit.ipos < atLit.ilen ∧ ¬ atLit.dlen ≤ atLit.olen + 1 ∧ atLit.k < 7 := by decide

theorem wit_NybbleCommandsAppendPairs : atPair.ipos < atPair.ilen ∧ atPair.canAppend ∧ (14 : Nibble) ≠ 15 ∧ (1 : Nibble) ≠ 0 := by
  decide

theorem wit_NybbleOpenPairsFollowParameter : atPair.ipos < atPair.ilen ∧ atPair.canAppend ∧
    State.canAppend { atPair with dlen := 0 } := by decide

theorem wit_CopyAppendsPeriodicBytes : atCopy.ipos + 2 ≤ atCopy.ilen ∧ atCopy.canAppend ∧ atCopy.out.wf = true ∧
    4096 - ((15 : Nibble).toNat * 256 + (0xFF : Byte).toNat) ≤ atCopy.olen.toNat := by decide

theorem wit_CopyBeforeStartRaises : atFarCopy.ipos + 2 ≤ atFarCopy.ilen ∧
    atFarCopy.olen.toNat < 4096 - ((15 : Nibble).toNat * 256 + (0xFD : Byte).toNat) := by decide

theorem wit_MissingBytesRaiseIOError : atEnd.ilen ≤ atEnd.ipos ∧ atLastMode.ilen = atLastMode.ipos + 1 := by decide

theorem wit_CommandsKeepConfiguration : ∃ t, exec (.copy 0 15 0xFF) atCopy = .next t := ⟨_, rfl⟩

theorem wit_CommandsStoreOnlyFromOlen : atCopy.canAppend ∧ (∃ t, exec (.copy 0 15 0xFF) atCopy = .next t) ∧
    atCopy.olen.toNat + storeWidth (.copy 0 15 0xFF) = 4 := ⟨by decide, ⟨_, rfl⟩, by decide⟩

theorem wit_ItemCommandsKeepLatch : (∀ c, Instr.copy 0 15 0xFF ≠ .cmd c) ∧ ∃ t, exec (.copy 0 15 0xFF) atCopy = .next t :=
  ⟨fun _ h => Instr.noConfusion h, ⟨_, rfl⟩⟩

theorem wit_PositionMovesByReads : ∃ t, exec (.copy 0 15 0xFF) atLastMode = .next t := ⟨_, rfl⟩

theorem wit_FailingCommandAppendsNothing : atFarCopy.canAppend ∧ atFarCopy.st ≠ .failed ∧
    ∃ t, exec (.copy 0 15 0xFD) atFarCopy = .next t ∧ t.st = .failed := ⟨by decide, by decide, ⟨_, rfl, rfl⟩⟩

/-- A failing step of each kind the statement names. -/
theorem wit_FaultsOfEachCommand : atEnd.st ≠ .failed ∧
    (∃ t, t.st = .failed ∧ exec (.cmd 0) atEnd = .next t ∧ exec (.lit 0) atEnd = .next t ∧
      exec (.nyb0 1 5) atEnd = .next t ∧ exec (.nyb1 2 15) atEnd = .next t) ∧
    (∃ t, t.st = .failed ∧ exec (.copy 0 15 0xFD) atFarCopy = .next t) ∧
    ∃ t, t.st = .failed ∧ step { atDone with clen := 25 } = .next t :=
  ⟨by decide, ⟨_, rfl, rfl, rfl, rfl, rfl⟩, ⟨_, rfl, rfl⟩, ⟨_, rfl, rfl⟩⟩

theorem wit_ZeroDeclaredLengthAppendsOne : ∃ t, exec (.nyb0 1 5) { atPair with dlen := 0 } = .next t ∧ t.st ≠ .failed ∧
    State.olen { atPair with dlen := 0 } = 0 ∧ State.st { atPair with dlen := 0 } = .processBit :=
  ⟨_, rfl, by decide, by decide, by decide⟩

theorem wit_StepRunsEncodedCommand : atCopy.slot = some .mode ∧ (Instr.copy 0 15 0xFF).wellFormed .mode atCopy.cft = true ∧
    atCopy.inBytes atCopy.ipos (Instr.copy 0 15 0xFF).length = encode (.copy 0 15 0xFF) := by decide

theorem wit_StepRunsEncodedCommand_cmd : atFetch.slot = some .command ∧ (Instr.cmd 0x80).wellFormed .command atFetch.cft = true ∧
    atFetch.inBytes atFetch.ipos (Instr.cmd 0x80).length = encode (.cmd 0x80) := by decide

theorem wit_StepOnMissingBytesRaisesIOError : atEnd.slot = some .mode ∧ atEnd.ilen ≤ atEnd.ipos ∧
    atLastMode.slot = some .mode ∧ atLastMode.ilen = atLastMode.ipos + 1 ∧
    find atLastMode.cft (hi (atLastMode.inp.read atLastMode.ipos)) = none := by decide

theorem wit_DoneStepChecksConsumedLength : atDone.st = .done ∧ atDone.clen.toNat = atDone.ipos + atDone.hlen.toNat := by decide

theorem wit_EngineAtRestTakesNoStep : State.reset.st = .idle ∧ atSuccess.st = .success ∧
    (State.raise .ioError atEnd).st = .failed := by decide

theorem wit_TransitionsFollowTheTable : (∃ t, step atFetch = .next t) ∧ (∃ t, step atPair = .next t) ∧
    (∃ t, step { atLit with k := 0 } = .next t) ∧ ∃ t, step atDone = .next t := ⟨⟨_, rfl⟩, ⟨_, rfl⟩, ⟨_, rfl⟩, ⟨_, rfl⟩⟩

/-- Another stream with the same two bytes at the copy, and nothing after them. -/
theorem wit_UnreadBytesDoNotMatter : atCopy.slot = some .mode ∧
    (Instr.copy 0 15 0xFF).wellFormed .mode atCopy.cft = true ∧ atCopy.inBytes atCopy.ipos 2 = encode (.copy 0 15 0xFF) ∧
    (atCopy.withInput [(2, 0x0F), (3, 0xFF), (4, 0x99)] 5).inBytes atCopy.ipos 2 = encode (.copy 0 15 0xFF) := by decide

theorem wit_OtherCommandBitsDoNotMatter : atCopy.st = .processBit ∧ msb 0x3F atCopy.k = msb atCopy.cmd atCopy.k := by decide

theorem wit_StepKeepsRunInvariant : atCopy.RunInv ∧ ∃ t, step atCopy = .next t :=
  ⟨⟨fun _ => by decide, by decide, by decide, by decide, atCopy_memory, ⟨fun _ => rfl, by decide⟩⟩, ⟨_, rfl⟩⟩

theorem atSuccess_memory : atSuccess.MemoryInv := ⟨by decide, by decide, by decide, by decide⟩

theorem wit_StartEstablishesRunInvariant : atSuccess.MemoryInv ∧ ∃ t, hostWrite .ctrl 1 atSuccess = .next t :=
  ⟨atSuccess_memory, ⟨_, rfl⟩⟩

theorem wit_StepKeepsMachineInvariant : atCopy.MachineInv ∧ ∃ t, step atCopy = .next t :=
  ⟨⟨fun _ => wit_StepKeepsRunInvariant.1, fun _ => by decide, atCopy_memory, ⟨fun _ => rfl, by decide⟩⟩, ⟨_, rfl⟩⟩

/-- The host starts a second run after a success. -/
theorem wit_HostKeepsMachineInvariant : atSuccess.MachineInv ∧ ∃ t, hostStep (.write .ctrl 1) atSuccess = .next t :=
  ⟨⟨fun h => absurd h (by decide), fun _ => by decide, atSuccess_memory, ⟨fun _ => rfl, by decide⟩⟩, ⟨_, rfl⟩⟩

theorem wit_OutputIsAppendOnly : atCopy.RunInv ∧ ∃ t, step atCopy = .next t := wit_StepKeepsRunInvariant

theorem wit_StartBeginsARun : atRest atSuccess.st = true ∧ atSuccess.written.all = true := by decide

theorem wit_StartNeedsEveryRegister : atRest State.reset.st = true ∧ State.reset.written.dlen = false ∧
    atRest (State.withFetchWord State.reset 8 0).st = false ∧
    State.reset.written.cft[(8 : PatternIndex)] = false := by decide

theorem wit_RegisterWritesTruncate : atRest atSuccess.st = true ∧ atRest atDone.st = false ∧
    (0 : PatternIndex) ≠ 8 ∧ 0 % 2 = 0 ∧ 2 ^ 40 + 1 ≠ 1 ∧ (2 ^ 40 + 1) % 2 = 1 := by decide

theorem wit_SuppliedStreamReadsBack : atRest State.reset.st = true ∧ 1 < [(7 : Byte), 0].length := by decide

theorem wit_HostHeldOffDuringRun : atRest atFetch.st = false ∧ atRest atLit.st = false ∧ atRest atDone.st = false ∧
    HostOp.write .ctrl 1 ≠ .hardwareReset := by decide

theorem wit_RegisterMapReads : atRest atSuccess.st = true ∧ atSuccess.ipos < 2 ^ 64 ∧ atSuccess.written.dlen = true ∧
    atSuccess.written.clen = true ∧ atSuccess.written.hlen = true ∧ atSuccess.written.cft[(8 : PatternIndex)] = true ∧
    atSuccess.st = .success ∧ atSuccess.st ≠ .failed := by decide

theorem wit_RegisterMapReads_unwritten : atRest State.reset.st = true ∧ State.reset.st = .idle ∧
    State.reset.written.dlen = false ∧ State.reset.written.clen = false ∧ State.reset.written.hlen = false ∧
    State.reset.written.cft[(0 : PatternIndex)] = false ∧ atRest (State.raise .ioError atEnd).st = true ∧
    (State.raise .ioError atEnd).st = .failed := by decide

theorem wit_ResultReadableOnlyOnSuccess : atSuccess.st = .success ∧ 3 < atSuccess.olen.toNat ∧ atSuccess.olen.toNat ≤ 4 ∧
    atRest (State.raise .ioError atEnd).st = true ∧ (State.raise .ioError atEnd).st ≠ .success ∧
    atRest State.reset.st = true ∧ State.reset.st ≠ .success := by decide

/-- S3: E1's header with byte 0 changed. -/
theorem wit_UnknownMagicIsRefused : 5 ≤ [(0x51 : Byte), 0x4B, 0x44, 0x50, 0x58].length ∧
    [(0x51 : Byte), 0x4B, 0x44, 0x50, 0x58].take 5 ≠ [0x50, 0x4B, 0x44, 0x50, 0x58] ∧
    [(0x51 : Byte), 0x4B, 0x44, 0x50, 0x58].take 5 ≠ [0x41, 0x54, 0x34, 0x50, 0x58] := by decide

theorem wit_ShortContainersFailWithIOError : atRest State.reset.st = true ∧ (magicA.take 4).length < 5 ∧
    (magicA ++ List.replicate 14 0).take 5 = [0x50, 0x4B, 0x44, 0x50, 0x58] ∧ (magicA ++ List.replicate 14 0).length < 20 ∧
    (magicB ++ List.replicate 12 0).take 5 = [0x41, 0x54, 0x34, 0x50, 0x58] ∧ (magicB ++ List.replicate 12 0).length < 18 := by
  decide

theorem wit_FrontEndLoadsHeader : atRest State.reset.st = true ∧
    (magicA ++ List.replicate 15 0).take 5 = [0x50, 0x4B, 0x44, 0x50, 0x58] ∧ 20 ≤ (magicA ++ List.replicate 15 0).length ∧
    (magicB ++ List.replicate 13 0).take 5 = [0x41, 0x54, 0x34, 0x50, 0x58] ∧ 18 ≤ (magicB ++ List.replicate 13 0).length := by
  decide

theorem wit_NaiveContainerRoundTrips : atRest State.reset.st = true ∧ [(0x41 : Byte)] ≠ [] ∧
    20 + [(0x41 : Byte)].length + ([(0x41 : Byte)].length + 7) / 8 ≤ 65535 := by decide

theorem wit_WrongContainerLengthFails : atRest atDone.st = false ∧ (25 : BitVec 16) ≠ atDone.clen ∧
    (runToRest 1 atDone).st = .success := by decide

theorem wit_AssembledItemsDecode : (10 : Nibble).setWidth 8 = tP4[(8 : PatternIndex)] ∧ find tP4 10 = some 8 ∧
    (∀ h : Nibble, h.setWidth 8 = tP4[(2 : PatternIndex)] → find tP4 h ≠ some 2) ∧
    find t19 (BitVec.ofNat 4 (18 - 3)) = none ∧ find t19 (BitVec.ofNat 4 (3 - 3)) = none ∧
    find t19 (BitVec.ofNat 4 (4 - 3)) ≠ none ∧ asmCopy t19 18 4096 = some [0xF0, 0x00] := by decide

/-- P2's lines and padding: fewer than eight items, then raw bytes or (refused) another line. -/
theorem wit_PlacementFollowsCommandBits : (∀ x ∈ [AsmItem.lit 0xAB, .copy 3 1], x.itemBit ≠ none) ∧
    [AsmItem.lit 0xAB, .copy 3 1].length < 8 ∧ [AsmItem.byte 0xAA].all AsmItem.isByte = true ∧
    (AsmItem.cmd 0).itemBit = none ∧ (AsmItem.cmd 0).isByte = false ∧
    wellPlaced [] (.cmd 0x80 :: ([AsmItem.lit 0xAB, .copy 3 1] ++ [.byte 0xAA])) = true := by decide

/-- P3's first group: eight items, then the next `CMD` and its item. -/
theorem wit_PlacementFollowsCommandBits_eight :
    (∀ x ∈ (List.finRange 8).map fun i => AsmItem.nyb i.castSucc 5, x.itemBit ≠ none) ∧
    ((List.finRange 8).map fun i => AsmItem.nyb i.castSucc 5).length = 8 ∧
    wellPlaced [] (.cmd 0x00 :: (((List.finRange 8).map fun i => AsmItem.nyb i.castSucc 5) ++ [.cmd 0x00, .nyb 8 5])) = true ∧
    wellPlaced [] (.cmd 0x01 :: (((List.finRange 8).map fun i => AsmItem.nyb i.castSucc 5) ++ [.cmd 0x00, .nyb 8 5])) = false := by
  decide

/-- P1's lines (one literal), and a `LIT8` of eight literals before another. -/
theorem wit_PlacementFollowsCommandBits_lit8 : 1 ≤ [(0x41 : Byte)].length ∧ (List.replicate 8 (0x41 : Byte)).length ≤ 8 ∧
    wellPlaced [] [.lit8 [0x41], .byte 0xAA] = true ∧
    wellPlaced [] [.lit8 (List.replicate 8 0x41), .lit8 [0x41]] = true ∧
    wellPlaced [] [.lit8 [0x41], .lit8 [0x41]] = false ∧ wellPlaced [] [.byte 0xAA, .lit 0x41] = false := by decide

end Sys2Proof.Tests
end

section
/-! The invariants of 10_state.md R37 and the frames of its registers: what one step keeps, then the host's side of the
state (START, hardware reset, register writes, the register map). -/

namespace Sys2Proof.Machine

/-! ## What a step can do -/

/-- A fetch answers only a command whose bytes the stream still has (30_encoding.md R94). -/
theorem State.fetch_length {s : State} {slot : Slot} {i : Instr} (h : s.fetch slot = .ok i) :
    s.ipos + i.length ≤ s.ilen := by
  cases slot with
  | command => obtain ⟨hl, rfl⟩ := State.fetch_command h; exact hl
  | literal => obtain ⟨hl, rfl⟩ := State.fetch_literal h; exact hl
  | mode =>
    rcases State.fetch_mode h with ⟨hl, j, _, rfl⟩ | ⟨hl, _, rfl⟩
    · rw [length_nybbleInstr]; exact hl
    · exact hl

/-- Where the offset byte alone is missing, the mode byte is the stream's last (30_encoding.md R99). -/
theorem State.decode_noOffsetByte {s : State} {slot : Slot}
    (h : decode slot s.cft s.fetchBytes = .error .noOffsetByte) : slot = .mode ∧ s.ipos + 1 = s.ilen := by
  rw [State.fetchBytes_eq] at h
  cases slot with
  | command => split_ifs at h <;> cases h
  | literal => split_ifs at h <;> cases h
  | mode =>
    split_ifs at h
    · cases hf : find s.cft (hi (s.inp.read s.ipos)) with
      | some j => rw [decode_mode_found hf] at h; cases h
      | none => rw [decode_mode_copy hf] at h; cases h
    · exact ⟨rfl, by omega⟩
    · cases h

/-- A state that answers a slot is about to read a payload byte (30_encoding.md R95). -/
theorem State.running_of_slot {s : State} {slot : Slot} (h : s.slot = some slot) : s.running := by
  rcases State.slot_eq_some h with ⟨hst, _⟩ | ⟨hst, _, _⟩ | ⟨hst, _, _⟩
  · exact .inl hst
  · exact .inr hst
  · exact .inr hst

/-- Everything a step that answers a next state can have done, by the state it starts in (42_decode_loop.md R160): it
latches a command byte, runs an item whose bytes are all there, fails for want of a byte, or makes the final check. -/
theorem step_inversion {s t : State} (h : step s = .next t) :
    (s.st = .readCommandByte ∧ s.ipos < s.ilen ∧ t = (s.advance 1).latch (s.inp.read s.ipos)) ∨
      (s.st = .processBit ∧ ∃ i : Instr, (∀ c, i ≠ .cmd c) ∧ exec i s = .next t) ∨
      (s.running ∧ t = s.raise .ioError) ∨
      (s.running ∧ s.ipos + 1 = s.ilen ∧ t = (s.advance 1).raise .ioError) ∨
      (s.st = .done ∧ t = s.finalCheck) := by
  rcases step_cases h with ⟨slot, i, hslot, hfetch, hexec⟩ | ⟨slot, e, hslot, hdec, rfl⟩ | ⟨hst, rfl⟩
  · rcases State.slot_eq_some hslot with ⟨hst, rfl⟩ | ⟨hst, _, rfl⟩ | ⟨hst, _, rfl⟩
    · obtain ⟨hl, rfl⟩ := State.fetch_command hfetch
      cases hexec
      exact .inl ⟨hst, hl, State.readThen_of_lt hl _⟩
    all_goals exact .inr (.inl ⟨hst, i, State.fetch_item (by decide) hfetch, hexec⟩)
  · have hrun := State.running_of_slot hslot
    cases e with
    | noFirstByte => exact .inr (.inr (.inl ⟨hrun, rfl⟩))
    | noOffsetByte => exact .inr (.inr (.inr (.inl ⟨hrun, (State.decode_noOffsetByte hdec).2, rfl⟩)))
  · exact .inr (.inr (.inr (.inr ⟨hst, rfl⟩)))

/-- The engine takes a step only while a run is in progress (42_decode_loop.md R160). -/
theorem not_atRest_of_step {s t : State} (h : step s = .next t) : atRest s.st = false := by
  rcases step_inversion h with ⟨hst, _⟩ | ⟨hst, _⟩ | ⟨hst | hst, _⟩ | ⟨hst | hst, _⟩ | ⟨hst, _⟩ <;> rw [hst] <;> rfl

/-! ## The run invariant, one rule per operation -/

/-- Taking a fault of the engine keeps the run invariant (60_exceptions.md R216). -/
theorem State.RunInv.raise {s : State} (h : s.RunInv) {f : FaultCode} (hf : f.ofEngine) : (s.raise f).RunInv where
  canAppend := by simp [State.running]
  outputBound := h.outputBound
  complete := by simp
  position := h.position
  memory := h.memory.congr rfl rfl rfl rfl
  status := ⟨fun hst => absurd rfl hst, fun _ => hf⟩

/-- Consuming bytes the stream has keeps the run invariant (20_memory.md R66). -/
theorem State.RunInv.advance {s : State} (h : s.RunInv) {n : Nat} (hn : s.ipos + n ≤ s.ilen) : (s.advance n).RunInv :=
  { h with
    position := hn
    memory := h.memory.congr rfl rfl rfl rfl
    status := ⟨h.status.noError, h.status.error⟩ }

theorem State.running.ne_failed {s : State} (h : s.running) : s.st ≠ .failed := by
  rcases h with h | h <;> simp [h]

/-- Latching a command byte keeps the run invariant (42_decode_loop.md R161). -/
theorem State.RunInv.latch {s : State} (h : s.RunInv) (hr : s.running) (c : Byte) : (s.latch c).RunInv where
  canAppend := fun _ => h.canAppend hr
  outputBound := h.outputBound
  complete := by simp
  position := h.position
  memory := h.memory.congr rfl rfl rfl rfl
  status := ⟨fun _ => h.status.noError hr.ne_failed, by simp⟩

/-- An append that does not reach the declared length keeps the run invariant (42_decode_loop.md R163). -/
theorem State.RunInv.append {s : State} (h : s.RunInv) (hr : s.running) (b : Byte) (hd : ¬ s.dlen ≤ s.olen + 1) :
    (s.append b).RunInv where
  canAppend := fun _ => State.canAppend_append b hd
  outputBound := (State.canAppend_lt (State.canAppend_append b hd)).le
  complete := by rcases hr with hr | hr <;> simp [hr]
  position := h.position
  memory := h.memory.append (h.canAppend hr) b
  status := ⟨h.status.noError, h.status.error⟩

/-- The append that reaches the declared length keeps the run invariant: `OLEN` is then `max(DLEN, 1)`
(42_decode_loop.md R163, 10_state.md R37). -/
theorem State.RunInv.lengthStop {s : State} (h : s.RunInv) (hr : s.running) (b : Byte) (hd : s.dlen ≤ s.olen + 1) :
    ((s.append b).goto .done).RunInv where
  canAppend := by simp [State.running]
  outputBound := (State.olen_at_stop (h.canAppend hr) hd).le
  complete := fun _ => State.olen_at_stop (h.canAppend hr) hd
  position := h.position
  memory := (h.memory.append (h.canAppend hr) b).congr rfl rfl rfl rfl
  status := ⟨fun _ => h.status.noError hr.ne_failed, by simp⟩

/-- Going on to the next command bit, or to the next command byte, leaves the engine about to read a payload byte
(42_decode_loop.md R164). -/
theorem State.nextBit_running {s : State} (hr : s.running) : s.nextBit.running := by
  unfold State.running
  rw [State.nextBit_st]
  split
  · exact hr
  · exact .inl rfl

/-- Going on after an item keeps the run invariant (42_decode_loop.md R164). -/
theorem State.RunInv.nextBit {s : State} (h : s.RunInv) (hr : s.running) : s.nextBit.RunInv where
  canAppend := fun _ => by simpa [State.canAppend] using h.canAppend hr
  outputBound := by simpa using h.outputBound
  complete := by rcases State.nextBit_running hr with hn | hn <;> simp [hn]
  position := by simpa using h.position
  memory := h.memory.congr (by simp) (by simp) (by simp) (by simp)
  status := ⟨fun _ => by simpa using h.status.noError hr.ne_failed,
    fun hf => absurd hf (State.nextBit_running hr).ne_failed⟩

/-- The final check keeps the run invariant, whichever way it ends (42_decode_loop.md R166). -/
theorem State.RunInv.finalCheck {s : State} (h : s.RunInv) (hst : s.st = .done) : s.finalCheck.RunInv := by
  unfold State.finalCheck
  split
  · exact {
      canAppend := by simp [State.running]
      outputBound := h.outputBound
      complete := fun _ => h.complete (.inl hst)
      position := h.position
      memory := h.memory.congr rfl rfl rfl rfl
      status := ⟨fun _ => h.status.noError (by simp [hst]), by simp⟩ }
  · exact h.raise (.inr (.inl rfl))

/-- Where an item command stands between two of its operations: within a run, about to read or append. -/
def State.InRun (s : State) : Prop := s.running ∧ s.RunInv

/-- An item command stays within the run invariant through each of its phases. -/
theorem runInv_phases : ItemPhases State.InRun State.InRun State.RunInv where
  read := fun _ ⟨hr, h⟩ hl => ⟨hr, h.advance hl⟩
  first := fun b _ ⟨hr, h⟩ hd => ⟨hr, h.append hr b hd⟩
  later := fun b _ ⟨hr, h⟩ hd => ⟨hr, h.append hr b hd⟩
  stopFirst := fun b _ ⟨hr, h⟩ hd => h.lengthStop hr b hd
  stopLater := fun b _ ⟨hr, h⟩ hd => h.lengthStop hr b hd
  raiseIOError := fun _ ⟨_, h⟩ _ => h.raise (.inl rfl)
  raiseNybbleRange := fun _ ⟨_, h⟩ => h.raise (.inr (.inr (.inr rfl)))
  raiseFirst := fun _ ⟨_, h⟩ => h.raise (.inr (.inr (.inl rfl)))
  raiseLater := fun _ ⟨_, h⟩ => h.raise (.inr (.inr (.inl rfl)))
  next := fun _ ⟨hr, h⟩ => h.nextBit hr

/-- Settles O38: by the inversion of a step; an item command by its phases. -/
theorem stepKeepsRunInvariant : Obligations.StepKeepsRunInvariant := by
  intro s t h hstep
  rcases step_inversion hstep with ⟨hst, hl, rfl⟩ | ⟨hst, i, hi, hexec⟩ | ⟨_, rfl⟩ | ⟨_, hl, rfl⟩ | ⟨hst, rfl⟩
  · exact (h.advance hl).latch (.inl hst) _
  · exact runInv_phases.exec hi hexec ⟨.inr hst, h⟩
  · exact h.raise (.inl rfl)
  · exact (h.advance hl.le).raise (.inl rfl)
  · exact h.finalCheck hst

/-! ## Configuration and input stream -/

/-- The engine's operations write no configuration register and no part of the input stream (10_state.md R22 to R25). -/
theorem sameConfig_kept (s : State) : KeptByOps s.sameConfig where
  advance := fun _ _ h => h
  raise := fun _ _ h => h
  latch := fun _ _ h => h
  append := fun _ _ h => h
  nextBit := fun _ h => by simpa [State.sameConfig] using h
  goto := fun _ _ h => h

theorem State.sameConfig_refl (s : State) : s.sameConfig s := ⟨rfl, rfl, rfl, rfl, rfl, rfl, rfl⟩

/-- Settles O24: every operation of a command keeps the configuration. -/
theorem commandsKeepConfiguration : Obligations.CommandsKeepConfiguration :=
  fun _ s _ h => (sameConfig_kept s).exec h s.sameConfig_refl

/-- A step writes no mark of a written configuration register (log 3). -/
theorem step_written {s t : State} (h : step s = .next t) : t.written = s.written := by
  obtain ⟨_, _, _, _, hw, _, _⟩ := (sameConfig_kept s).step h s.sameConfig_refl
  exact hw

/-- Settles O41: a step is taken during a run only, where the run invariant holds and is kept. -/
theorem stepKeepsMachineInvariant : Obligations.StepKeepsMachineInvariant := by
  intro s t h hstep
  have hbusy := not_atRest_of_step hstep
  have ht : t.RunInv := stepKeepsRunInvariant s t (h.run hbusy) hstep
  have hidle : s.st ≠ .idle := by
    intro hst
    rw [hst] at hbusy
    cases hbusy
  exact ⟨fun _ => ht, fun _ => by rw [step_written hstep]; exact h.configured hidle, ht.memory, ht.status⟩

/-! ## The latch and the cause of a failure -/

/-- The latch, the state and `ERR` as in `s`: where an item command that started in `s` stands between two operations. -/
structure State.SameLatch (s u : State) : Prop where
  cmd : u.cmd = s.cmd
  k : u.k = s.k
  st : u.st = s.st
  err : u.err = s.err

/-- What an item command that started in `s` leaves in `CMD`, `K` and `ERR` (10_state.md R28, R29, R32). -/
structure State.LatchFrame (s t : State) : Prop where
  cmd : t.cmd = s.cmd
  k : t.k = s.k ∨ (s.k < 7 ∧ t.k = s.k + 1 ∧ t.st = s.st)
  err : t.err = s.err ∨ t.st = .failed

/-- Taking a fault keeps the latch (60_exceptions.md R216). -/
theorem State.SameLatch.raise {s u : State} (h : s.SameLatch u) (f : FaultCode) : s.LatchFrame (u.raise f) :=
  ⟨h.cmd, .inl h.k, .inr rfl⟩

/-- Going on moves `K` to the next bit in the same state, or leaves it (42_decode_loop.md R164). -/
theorem State.SameLatch.nextBit {s u : State} (h : s.SameLatch u) : s.LatchFrame u.nextBit where
  cmd := by rw [State.nextBit_cmd, h.cmd]
  k := by
    rw [State.nextBit_k, State.nextBit_st, h.k, h.st]
    by_cases hk : s.k < 7
    · exact .inr ⟨hk, if_pos hk, if_pos hk⟩
    · exact .inl (if_neg hk)
  err := .inl (by rw [State.nextBit_err, h.err])

/-- An item command keeps the latch through each of its phases. -/
theorem latch_phases (s : State) : ItemPhases s.SameLatch s.SameLatch s.LatchFrame where
  read := fun _ h _ => ⟨h.cmd, h.k, h.st, h.err⟩
  first := fun _ _ h _ => ⟨h.cmd, h.k, h.st, h.err⟩
  later := fun _ _ h _ => ⟨h.cmd, h.k, h.st, h.err⟩
  stopFirst := fun _ _ h _ => ⟨h.cmd, .inl h.k, .inl h.err⟩
  stopLater := fun _ _ h _ => ⟨h.cmd, .inl h.k, .inl h.err⟩
  raiseIOError := fun _ h _ => h.raise _
  raiseNybbleRange := fun _ h => h.raise _
  raiseFirst := fun _ h => h.raise _
  raiseLater := fun _ h => h.raise _
  next := fun _ h => h.nextBit

/-- Settles O26: by the phases of an item command. -/
theorem itemCommandsKeepLatch : Obligations.ItemCommandsKeepLatch := by
  intro i s t hi hexec
  have h : s.LatchFrame t := (latch_phases s).exec hi hexec ⟨rfl, rfl, rfl, rfl⟩
  exact ⟨h.cmd, h.k, h.err⟩

/-! ## The input position -/

@[simp] theorem Progress.finish_ipos (p : Progress) : p.finish.ipos = p.state.ipos := by
  cases p with
  | running s => exact State.nextBit_ipos s
  | ended s => rfl

@[simp] theorem State.emit_ipos (b : Byte) (s : State) : (s.emit b).state.ipos = s.ipos := by
  rw [State.emit_eq]
  split <;> rfl

/-- A part of a command that reads nothing leaves `IPOS` where it was. -/
theorem Progress.andThen_ipos {p : Progress} {f : State → Progress} (hf : ∀ u, (f u).state.ipos = u.ipos) :
    (p.andThen f).state.ipos = p.state.ipos := by
  cases p with
  | running s => exact hf s
  | ended s => rfl

@[simp] theorem State.copyLoop_ipos (n : Nat) (a : Int) (s : State) : (s.copyLoop n a).state.ipos = s.ipos := by
  induction n generalizing a s with
  | zero => rfl
  | succ n ih =>
    cases hm : s.memRead a with
    | none => rw [State.copyLoop_out hm]; rfl
    | some b => rw [State.copyLoop_succ hm, Progress.andThen_ipos (ih (a + 1)), State.emit_ipos]

/-- A command of one read moves `IPOS` by one, unless the stream has ended (20_memory.md R66). -/
theorem State.readThen_ipos {f : State → State} (hf : ∀ u, (f u).ipos = u.ipos) (s : State) :
    (s.readThen f).ipos = s.ipos + min 1 (s.ilen - s.ipos) := by
  by_cases hl : s.ipos < s.ilen
  · rw [State.readThen_of_lt hl, hf, State.advance_ipos]; omega
  · rw [State.readThen_of_ge (by omega), State.raise_ipos]; omega

/-- A command of two reads moves `IPOS` by two, or by the bytes the stream still has (60_exceptions.md R217). -/
theorem State.readThen_readThen_ipos {f : State → State} (hf : ∀ u, (f u).ipos = u.ipos) (s : State) :
    (s.readThen fun t => t.readThen f).ipos = s.ipos + min 2 (s.ilen - s.ipos) := by
  by_cases hl : s.ipos < s.ilen
  · rw [State.readThen_of_lt hl, State.readThen_ipos hf, State.advance_ipos, State.advance_ilen]; omega
  · rw [State.readThen_of_ge (by omega), State.raise_ipos]; omega

theorem State.nybble_ipos (j : PatternIndex) (l : Nibble) (s : State) :
    (s.nybble j l).ipos = s.ipos + min 1 (s.ilen - s.ipos) := by
  refine State.readThen_ipos (fun u => ?_) s
  cases pattern j l with
  | none => rfl
  | some p =>
    calc ((u.emit p.1).andThen (State.emit p.2)).finish.ipos
      _ = ((u.emit p.1).andThen (State.emit p.2)).state.ipos := Progress.finish_ipos _
      _ = (u.emit p.1).state.ipos := Progress.andThen_ipos (State.emit_ipos p.2)
      _ = u.ipos := State.emit_ipos p.1 u

/-- Settles O27: the reads of each command, one or two; nothing else moves `IPOS`. -/
theorem positionMovesByReads : Obligations.PositionMovesByReads := by
  intro i s t h
  cases i <;> cases h
  case cmd c => exact State.readThen_ipos (State.latch_ipos c) s
  case lit d => exact State.readThen_ipos (fun u => by simp) s
  case copy hn l o => exact State.readThen_readThen_ipos (fun u => by simp) s
  all_goals exact State.nybble_ipos _ _ s

/-! ## The other command bits -/

/-- `s` with another command byte latched. -/
def State.withCmd (c : Byte) (s : State) : State := { s with cmd := c }

theorem State.nextBit_of_lt {s : State} (h : s.k < 7) : s.nextBit = { s with k := s.k + 1 } := if_pos h

theorem State.nextBit_of_last {s : State} (h : ¬ s.k < 7) : s.nextBit = { s with st := .readCommandByte } := if_neg h

/-- No operation of an item command reads or writes `CMD`. -/
theorem commutes_withCmd (c : Byte) : CommutesWithOps (State.withCmd c) where
  advance := fun _ _ => rfl
  raise := fun _ _ => rfl
  append := fun _ _ => rfl
  nextBit := fun s => by
    by_cases hk : s.k < 7
    · rw [State.nextBit_of_lt hk]; exact State.nextBit_of_lt hk
    · rw [State.nextBit_of_last hk]; exact State.nextBit_of_last hk
  goto := fun _ _ => rfl
  olen := fun _ => rfl
  dlen := fun _ => rfl
  out := fun _ => rfl

/-- The slot of the next byte depends on the command bit at `K` alone (30_encoding.md R95). -/
theorem State.slot_withCmd {s : State} {c : Byte} (hst : s.st = .processBit) (hb : msb c s.k = msb s.cmd s.k) :
    (s.withCmd c).slot = s.slot := by
  simp [State.slot, State.withCmd, selectSlot, hst, hb]

theorem State.fetchBytes_withCmd (c : Byte) (s : State) : (s.withCmd c).fetchBytes = s.fetchBytes := by
  rw [State.fetchBytes_eq, State.fetchBytes_eq]; rfl

theorem State.starved_withCmd (c : Byte) (e : DecodeError) (s : State) :
    (s.withCmd c).starved e = (s.starved e).withCmd c := by
  cases e <;> rfl

/-- A step whose bytes decode runs the command decoded. -/
theorem step_of_decode {s : State} {slot : Slot} {i : Instr} {rest : List Byte} (hs : s.slot = some slot)
    (hd : decode slot s.cft s.fetchBytes = .ok (i, rest)) : step s = exec i s := by
  simp [step, hs, State.fetch, hd]

/-- A step whose bytes do not decode ends in the state after `IOError` (60_exceptions.md R212). -/
theorem step_of_decode_error {s : State} {slot : Slot} {e : DecodeError} (hs : s.slot = some slot)
    (hd : decode slot s.cft s.fetchBytes = .error e) : step s = .next (s.starved e) := by
  simp [step, hs, State.fetch, hd]

/-- In `ProcessBit` the next byte is an item's (30_encoding.md R95). -/
theorem State.slot_of_processBit {s : State} (hst : s.st = .processBit) : ∃ slot, s.slot = some slot ∧ slot ≠ .command := by
  simp only [State.slot, selectSlot, hst]
  cases msb s.cmd s.k
  · exact ⟨.mode, rfl, by decide⟩
  · exact ⟨.literal, rfl, by decide⟩

/-- Settles O37: both latches select the same slot, and no operation of the item looks at the latch. -/
theorem otherCommandBitsDoNotMatter : Obligations.OtherCommandBitsDoNotMatter := by
  intro s c hst hb
  show step (s.withCmd c) = mapNext (State.withCmd c) (step s)
  obtain ⟨slot, hslot, hne⟩ := State.slot_of_processBit hst
  have hslot' := (State.slot_withCmd hst hb).trans hslot
  have hdec : decode slot (s.withCmd c).cft (s.withCmd c).fetchBytes = decode slot s.cft s.fetchBytes := by
    rw [State.fetchBytes_withCmd]; rfl
  cases hd : decode slot s.cft s.fetchBytes with
  | error e =>
    rw [step_of_decode_error hslot hd, step_of_decode_error hslot' (hdec.trans hd), State.starved_withCmd]
    rfl
  | ok p =>
    have hfetch : s.fetch slot = .ok p.1 := by simp [State.fetch, hd]
    have hl := State.fetch_length hfetch
    rw [step_of_decode hslot hd, step_of_decode hslot' (hdec.trans hd)]
    exact (commutes_withCmd c).exec (State.fetch_item hne hfetch) hl hl

/-! ## The output only grows -/

/-- Every byte of the output of `s` is there in `t`, and neither length has shrunk (10_state.md R37 (f)). -/
structure State.Extends (s t : State) : Prop where
  olen : s.olen.toNat ≤ t.olen.toNat
  bytes : ∀ a : Nat, a < s.olen.toNat → t.memRead a = s.memRead a
  ipos : s.ipos ≤ t.ipos

theorem State.Extends.refl (s : State) : s.Extends s := ⟨le_rfl, fun _ _ => rfl, le_rfl⟩

/-- A change of state that keeps the output and moves `IPOS` forward at most. -/
theorem State.Extends.of_sameOutput {s u v : State} (h : s.Extends u) (hl : v.olen = u.olen) (ho : v.out = u.out)
    (hp : u.ipos ≤ v.ipos) : s.Extends v where
  olen := by rw [hl]; exact h.olen
  bytes := fun a ha => by
    have hv : v.memRead a = u.memRead a := by unfold State.memRead; rw [hl, ho]
    exact hv.trans (h.bytes a ha)
  ipos := h.ipos.trans hp

/-- Appending a byte changes none of the bytes before it (20_memory.md R69). -/
theorem State.memRead_append {s : State} (hc : s.canAppend) (b : Byte) {a : Nat} (ha : a < s.olen.toNat) :
    (s.append b).memRead a = s.memRead a := by
  have hl : (s.append b).olen.toNat = s.olen.toNat + 1 := State.canAppend_succ hc
  rw [State.memRead_of_lt ha, State.memRead_of_lt (by omega), State.append_out,
    Memory.read_write_other _ (by omega)]

theorem State.Extends.append {s u : State} (h : s.Extends u) (hc : u.canAppend) (b : Byte) : s.Extends (u.append b) where
  olen := by
    rw [State.append_olen, State.canAppend_succ hc]
    exact h.olen.trans (Nat.le_succ _)
  bytes := fun a ha => (State.memRead_append hc b (ha.trans_le h.olen)).trans (h.bytes a ha)
  ipos := h.ipos

/-- Where an item command that started in `s` stands: its output extends that of `s` and has room for a byte. -/
def State.Growing (s u : State) : Prop := s.Extends u ∧ u.canAppend

/-- An item command only extends the output through each of its phases. -/
theorem extends_phases (s : State) : ItemPhases s.Growing s.Growing s.Extends where
  read := fun _ ⟨h, hc⟩ _ => ⟨h.of_sameOutput rfl rfl (Nat.le_succ _), hc⟩
  first := fun b _ ⟨h, hc⟩ hd => ⟨h.append hc b, State.canAppend_append b hd⟩
  later := fun b _ ⟨h, hc⟩ hd => ⟨h.append hc b, State.canAppend_append b hd⟩
  stopFirst := fun b _ ⟨h, hc⟩ _ => (h.append hc b).of_sameOutput rfl rfl le_rfl
  stopLater := fun b _ ⟨h, hc⟩ _ => (h.append hc b).of_sameOutput rfl rfl le_rfl
  raiseIOError := fun _ ⟨h, _⟩ _ => h.of_sameOutput rfl rfl le_rfl
  raiseNybbleRange := fun _ ⟨h, _⟩ => h.of_sameOutput rfl rfl le_rfl
  raiseFirst := fun _ ⟨h, _⟩ => h.of_sameOutput rfl rfl le_rfl
  raiseLater := fun _ ⟨h, _⟩ => h.of_sameOutput rfl rfl le_rfl
  next := fun u ⟨h, _⟩ => h.of_sameOutput u.nextBit_olen u.nextBit_out u.nextBit_ipos.ge

/-- The final check leaves the output and `IPOS` as they are (42_decode_loop.md R166). -/
theorem State.finalCheck_extends (s : State) : s.Extends s.finalCheck := by
  unfold State.finalCheck
  split <;> exact (State.Extends.refl s).of_sameOutput rfl rfl le_rfl

/-- Within a run a step only extends the output (20_memory.md R69). -/
theorem step_extends {s t : State} (h : s.RunInv) (hstep : step s = .next t) : s.Extends t := by
  have hs := State.Extends.refl s
  rcases step_inversion hstep with ⟨_, _, rfl⟩ | ⟨hst, i, hi, hexec⟩ | ⟨_, rfl⟩ | ⟨_, _, rfl⟩ | ⟨_, rfl⟩
  · exact hs.of_sameOutput rfl rfl (Nat.le_succ _)
  · exact (extends_phases s).exec hi hexec ⟨hs, h.canAppend (.inr hst)⟩
  · exact hs.of_sameOutput rfl rfl le_rfl
  · exact hs.of_sameOutput rfl rfl (Nat.le_succ _)
  · exact s.finalCheck_extends

/-- Settles O43: `OLEN` does not wrap where a byte may be appended, so every append stands above the bytes before it. -/
theorem outputIsAppendOnly : Obligations.OutputIsAppendOnly := by
  intro s t h hstep
  have he := step_extends h hstep
  exact ⟨he.olen, he.bytes, he.ipos⟩

/-! ## Reset and START -/

theorem State.reset_memoryInv : State.reset.MemoryInv := ⟨rfl, rfl, rfl, rfl⟩

theorem State.reset_statusInv : State.reset.StatusInv := ⟨fun _ => rfl, by simp⟩

/-- The run invariant holds after reset: no run is in progress and the output is empty (10_state.md R38). -/
theorem State.reset_runInv : State.reset.RunInv where
  canAppend := by simp [State.running]
  outputBound := by simp
  complete := by simp
  position := le_rfl
  memory := State.reset_memoryInv
  status := State.reset_statusInv

/-- The machine invariant holds after reset: the engine is at rest in `Idle` (10_state.md R38). -/
theorem State.reset_machineInv : State.reset.MachineInv :=
  ⟨fun _ => State.reset_runInv, by simp, State.reset_memoryInv, State.reset_statusInv⟩

/-- Settles O39: field by field at the reset values. -/
theorem resetMeetsInvariants : Obligations.ResetMeetsInvariants := ⟨State.reset_runInv, State.reset_machineInv⟩

/-- A started run has an empty output, so a first byte may be appended whatever `DLEN` is (10_state.md R37 (b)). -/
theorem State.start_canAppend (s : State) : s.start.canAppend := by
  show 0 < s.dlen ∨ (s.dlen = 0 ∧ (0 : BitVec 32) = 0)
  by_cases hd : s.dlen = 0
  · exact .inr ⟨hd, rfl⟩
  · exact .inl (BitVec.lt_def.mpr (Nat.pos_of_ne_zero fun h0 => hd (BitVec.eq_of_toNat_eq h0)))

/-- The effect of START meets the run invariant, given only that the stream is held canonically
(70_reset_and_hazards.md R253). -/
theorem State.start_runInv {s : State} (h : s.MemoryInv) : s.start.RunInv where
  canAppend := fun _ => s.start_canAppend
  outputBound := by simp
  complete := by simp
  position := Nat.zero_le _
  memory := ⟨rfl, rfl, h.inCanonical, h.inExtent⟩
  status := ⟨fun _ => rfl, by simp⟩

/-- A host write at rest is the write itself (43_host_frontend.md R191). -/
theorem hostWrite_atRest {s : State} (h : atRest s.st = true) (r : CReg) (v : Nat) :
    hostWrite r v s = writeAtRest r v s := if_pos h

/-- A host write during a run is refused (70_reset_and_hazards.md R262; log 13). -/
theorem hostWrite_duringRun {s : State} (h : atRest s.st = false) (r : CReg) (v : Nat) :
    hostWrite r v s = .refused .hostDuringRun := if_neg (by simp [h])

/-- A write of an even value to `CTRL` does nothing (10_state.md R33). -/
theorem writeAtRest_ctrl_even {v : Nat} (hv : v % 2 = 0) (s : State) : writeAtRest .ctrl v s = .next s :=
  if_neg (by omega)

/-- A write of an odd value to `CTRL` is START (10_state.md R33). -/
theorem writeAtRest_ctrl_odd {v : Nat} (hv : v % 2 = 1) (s : State) : writeAtRest .ctrl v s = hostStart s :=
  if_pos hv

/-- A START that is not refused leaves the started run (70_reset_and_hazards.md R253, R254). -/
theorem eq_start_of_hostStart {s t : State} (h : hostStart s = .next t) : t = s.start := by
  unfold hostStart at h
  split at h
  · cases h
  · split at h <;> cases h
    rfl

/-- A write of 1 to `CTRL` that answers a next state has started a run (70_reset_and_hazards.md R253). -/
theorem eq_start_of_write {s t : State} (h : hostWrite .ctrl 1 s = .next t) : t = s.start := by
  cases hr : atRest s.st with
  | false => rw [hostWrite_duringRun hr] at h; cases h
  | true =>
    rw [hostWrite_atRest hr, writeAtRest_ctrl_odd rfl] at h
    exact eq_start_of_hostStart h

/-- Settles O40: what START leaves meets the invariant. -/
theorem startEstablishesRunInvariant : Obligations.StartEstablishesRunInvariant := by
  intro s t h hw
  rw [eq_start_of_write hw]
  exact State.start_runInv h

/-- START right after hardware reset is refused: no configuration register is written (70_reset_and_hazards.md R254). -/
theorem start_after_hardwareReset (s : State) : hostWrite .ctrl 1 (hardwareReset s) = .refused .startUnwritten := rfl

/-- Settles O44: the reset values of the registers, and the missing marks that refuse START. -/
theorem hardwareResetValues : Obligations.HardwareResetValues := by
  intro s
  refine ⟨hardwareReset s, rfl, rfl, rfl, rfl, rfl, rfl, rfl, rfl, rfl, fun i => ?_, start_after_hardwareReset s⟩
  simp

/-! ## Register writes -/

theorem State.setCft_getElem_same (i : PatternIndex) (v : Nat) (s : State) :
    (s.setCft i v).cft[i] = BitVec.ofNat 8 v ∧ (s.setCft i v).written.cft[i] = true := by
  simp

/-- Writing one table entry leaves the others, and their marks (43_host_frontend.md R191). -/
theorem State.setCft_getElem_other {i j : PatternIndex} (hj : j ≠ i) (v : Nat) (s : State) :
    (s.setCft i v).cft[j] = s.cft[j] ∧ (s.setCft i v).written.cft[j] = s.written.cft[j] := by
  have hij : (i : Nat) ≠ j := fun h => hj (Fin.ext h.symm)
  simp [hij]

/-- A write to a read-only register is refused (10_state.md R33; log 11). -/
theorem writeAtRest_readOnly {r : CReg} (hr : r ∈ [CReg.status, .err, .olen, .ipos]) (v : Nat) (s : State) :
    writeAtRest r v s = .refused .notHostWritable := by
  simp only [List.mem_cons, List.not_mem_nil, or_false] at hr
  rcases hr with rfl | rfl | rfl | rfl <;> rfl

/-- Settles O47: each register's write at rest, and the refusal of every write during a run. -/
theorem registerWritesTruncate : Obligations.RegisterWritesTruncate := by
  intro v s
  refine ⟨fun h => ?_, fun h r => hostWrite_duringRun h r v⟩
  refine ⟨hostWrite_atRest h .dlen v, hostWrite_atRest h .clen v, hostWrite_atRest h .hlen v, fun i => ?_,
    fun hv => ?_, fun hv => ?_, fun r hr => ?_⟩
  · obtain ⟨hcft, hmark⟩ := State.setCft_getElem_same i v s
    exact ⟨s.setCft i v, hostWrite_atRest h (.cft i) v, hcft, fun j hj => State.setCft_getElem_other hj v s, hmark, rfl⟩
  · rw [hostWrite_atRest h, writeAtRest_ctrl_even hv]
  · rw [hostWrite_atRest h, hostWrite_atRest h, writeAtRest_ctrl_odd hv, writeAtRest_ctrl_odd rfl]
  · rw [hostWrite_atRest h, writeAtRest_readOnly hr]

/-! ## The register map -/

/-- The table's registers are numbered from 8 on (10_state.md R33). -/
theorem CReg.ofNumber_cft (i : PatternIndex) : CReg.ofNumber (8 + i) = some (.cft i) := by
  rw [Nat.add_comm]
  exact dif_pos i.isLt

/-- There is no register from number 17 on (10_state.md R33). -/
theorem CReg.ofNumber_of_ge {n : Nat} (h : 17 ≤ n) : CReg.ofNumber n = none := by
  obtain ⟨m, rfl⟩ := Nat.exists_eq_add_of_le' (show 8 ≤ n by omega)
  exact dif_neg (by omega)

/-- Every register has the number that names it (10_state.md R33). -/
theorem CReg.ofNumber_number (r : CReg) : CReg.ofNumber r.number = some r := by
  cases r
  case cft i => exact CReg.ofNumber_cft i
  all_goals rfl

section
variable {s : State} (h : atRest s.st = true)
include h

/-- At rest a register that holds a value reads as it (10_state.md R33). -/
theorem readRegister_of_holdsValue {r : CReg} (hv : s.holdsValue r = true) :
    readRegister r s = .next (s.registerValue r) := by
  rw [readRegister_atRest h, if_pos hv]

/-- At rest a configuration register without a value is refused (10_state.md R38). -/
theorem readRegister_of_noValue {r : CReg} (hv : s.holdsValue r = false) :
    readRegister r s = .refused .readNoValue := by
  rw [readRegister_atRest h, hv]
  rfl

/-- A register of at most 64 bits that holds a value reads as the number it holds: the reserved bits are 0
(10_state.md R33). -/
theorem readRegister_toNat {r : CReg} {w : Nat} {x : BitVec w} (hw : w ≤ 64) (hv : s.holdsValue r = true)
    (hx : s.registerValue r = x.setWidth 64) : ∃ v : BitVec 64, readRegister r s = .next v ∧ v.toNat = x.toNat :=
  ⟨_, readRegister_of_holdsValue h hv, by rw [hx, BitVec.toNat_setWidth_of_le hw]⟩

/-- A read that the host's interface lists is the register map's (43_host_frontend.md R190). -/
theorem hostReadReg_listed {r : CReg} (hm : hostMayRead r s.st = true) : hostReadReg r s = readRegister r s := by
  rw [hostReadReg_atRest h, if_pos hm]

/-- A read that the host's interface does not list is refused (43_host_frontend.md R190). -/
theorem hostReadReg_unlisted {r : CReg} (hm : hostMayRead r s.st = false) :
    hostReadReg r s = .refused .notHostReadable := by
  rw [hostReadReg_atRest h, hm]
  rfl

end

/-- The registers the host's interface lists in no state (43_host_frontend.md R190). -/
theorem hostMayRead_never {r : CReg} (hr : r ∈ [CReg.ctrl, .dlen, .clen, .hlen]) (st : EngineState) :
    hostMayRead r st = false := by
  simp only [List.mem_cons, List.not_mem_nil, or_false] at hr
  rcases hr with rfl | rfl | rfl | rfl <;> rfl

/-- Settles O50: the numbers, then what the map reads as, then what the interface gives of it. -/
theorem registerMapReads : Obligations.RegisterMapReads := by
  refine ⟨⟨rfl, rfl, rfl, rfl, rfl, rfl, rfl, rfl, CReg.ofNumber_cft, fun _ => CReg.ofNumber_of_ge,
    CReg.ofNumber_number⟩, fun s h => ?_⟩
  have hipos : s.ipos < 2 ^ 64 → ∃ v : BitVec 64, readRegister .ipos s = .next v ∧ v.toNat = s.ipos :=
    fun hb => ⟨_, readRegister_of_holdsValue h rfl, (BitVec.toNat_ofNat _ _).trans (Nat.mod_eq_of_lt hb)⟩
  have hstatus : readRegister .status s = .next ((stateCode s.st).setWidth 64) := readRegister_of_holdsValue h rfl
  have herr : readRegister .err s = .next (s.err.code.setWidth 64) := readRegister_of_holdsValue h rfl
  refine ⟨readRegister_of_holdsValue h rfl, ?_, ?_, readRegister_toNat h (by decide) rfl rfl, hipos,
    fun hw => readRegister_toNat h (by decide) hw rfl, fun hw => readRegister_toNat h (by decide) hw rfl,
    fun hw => readRegister_toNat h (by decide) hw rfl, fun i hw => readRegister_toNat h (by decide) hw rfl,
    fun hw => readRegister_of_noValue h hw, fun hw => readRegister_of_noValue h hw,
    fun hw => readRegister_of_noValue h hw, fun i hw => readRegister_of_noValue h hw,
    hostReadReg_listed h h, hostReadReg_listed h h, fun hst => hostReadReg_listed h ?_,
    fun hst => hostReadReg_listed h ?_, fun hst => hostReadReg_unlisted h ?_, fun hst => hostReadReg_unlisted h ?_,
    fun r hr => hostReadReg_unlisted h (hostMayRead_never hr _), fun i => hostReadReg_unlisted h rfl⟩
  · rw [hstatus]
    cases s.st <;> rfl
  · rw [herr]
    cases s.err <;> rfl
  · simpa [hostMayRead] using hst
  · simpa [hostMayRead] using hst
  · simp [hostMayRead, hst]
  · simpa [hostMayRead] using hst

end Sys2Proof.Machine
end

section
/-! The two byte spaces of 20_memory.md: reads of `IN` and the supplied stream, appends to `OUT` and the bytes a command
may store, and what the host reads of the result. -/

namespace Sys2Proof.Machine

/-! ## The input stream -/

/-- Settles O11: a read past the end fails, a read inside the stream advances. -/
theorem inReadAdvancesOrFails : Obligations.InReadAdvancesOrFails := fun _ f =>
  ⟨fun h => ⟨State.inRead_of_ge h, State.readThen_of_ge h f⟩, fun h => ⟨State.inRead_of_lt h, State.readThen_of_lt h f⟩⟩

/-- A supplied stream has its own bytes at its addresses (20_memory.md R65). -/
theorem State.inByte_supply {bytes : List Byte} {a : Nat} (ha : a < bytes.length) (s : State) :
    (s.supply bytes).inByte a = some (bytes.getD a 0) := by
  rw [State.inByte_of_lt ha, State.supply_inp, Memory.read_ofBytes, if_pos a.zero_le]
  rfl

/-- Settles O48: the stream is held from address 0 on, and ends at its length. -/
theorem suppliedStreamReadsBack : Obligations.SuppliedStreamReadsBack := fun bytes s h =>
  ⟨s.supply bytes, hostStep_supply h bytes, rfl, fun _ ha => s.inByte_supply ha, fun _ ha => State.inByte_of_ge ha, rfl⟩

/-! ## The bytes a command stores -/

/-- Settles O13: `OLEN` does not wrap, so the appended byte stands below the new extent. -/
theorem appendedByteReadsBack : Obligations.AppendedByteReadsBack := by
  intro b s h hc
  have hl : s.olen.toNat < (s.append b).olen.toNat := by
    rw [State.append_olen, State.canAppend_succ hc]
    exact Nat.lt_succ_self _
  refine ⟨?_, fun _ ha => Memory.read_write_other _ ha b, h.append hc b⟩
  rw [State.memRead_of_lt hl, State.append_out, Memory.read_write_same h.outCanonical]

/-- From `s` to `t` at most `w` bytes were appended, and no other byte of `OUT` changed (20_memory.md R69). -/
structure State.StoresWithin (w : Nat) (s t : State) : Prop where
  frame : ∀ a : Nat, a < s.olen.toNat ∨ s.olen.toNat + w ≤ a → t.out.read a = s.out.read a
  lower : s.olen.toNat ≤ t.olen.toNat
  upper : t.olen.toNat ≤ s.olen.toNat + w

theorem State.StoresWithin.refl (w : Nat) (s : State) : State.StoresWithin w s s :=
  ⟨fun _ _ => rfl, le_rfl, Nat.le_add_right _ _⟩

/-- A change of state that keeps the output stores nothing more. -/
theorem State.StoresWithin.sameOutput {w : Nat} {s t u : State} (h : State.StoresWithin w s t) (hl : u.olen = t.olen)
    (ho : u.out = t.out) : State.StoresWithin w s u where
  frame := by rw [ho]; exact h.frame
  lower := by rw [hl]; exact h.lower
  upper := by rw [hl]; exact h.upper

/-- The widths of two parts of a command add up. -/
theorem State.StoresWithin.trans {s t u : State} {m n : Nat} (h : State.StoresWithin m s t)
    (h' : State.StoresWithin n t u) : State.StoresWithin (m + n) s u := by
  have hlo := h.lower
  have hup := h.upper
  have hlo' := h'.lower
  have hup' := h'.upper
  exact ⟨fun a ha => (h'.frame a (by omega)).trans (h.frame a (by omega)), by omega, by omega⟩

theorem State.StoresWithin.append {s : State} (hc : s.canAppend) (b : Byte) : State.StoresWithin 1 s (s.append b) := by
  have hl : (s.append b).olen.toNat = s.olen.toNat + 1 := State.canAppend_succ hc
  exact ⟨fun a ha => Memory.read_write_other _ (by omega) b, by omega, by omega⟩

/-- Where a command stands after a part of it that stores at most `w` bytes: if it goes on there is room for a byte. -/
def Progress.AppendsWithin (w : Nat) (s : State) (p : Progress) : Prop :=
  p.At (fun u => State.StoresWithin w s u ∧ u.canAppend) (State.StoresWithin w s)

theorem Progress.AppendsWithin.andThen {m n : Nat} {s : State} {p : Progress} (hp : p.AppendsWithin m s)
    {f : State → Progress} (hf : ∀ u, u.canAppend → (f u).AppendsWithin n u) : (p.andThen f).AppendsWithin (m + n) s := by
  cases p with
  | ended u => exact hp.trans (.refl n u)
  | running u =>
    obtain ⟨hu, hc⟩ := hp
    have hv := hf u hc
    rw [Progress.andThen_running]
    cases hfu : f u with
    | running v => rw [hfu] at hv; exact ⟨hu.trans hv.1, hv.2⟩
    | ended v => rw [hfu] at hv; exact hu.trans hv

theorem Progress.AppendsWithin.finish {w : Nat} {s : State} {p : Progress} (hp : p.AppendsWithin w s) :
    State.StoresWithin w s p.finish := by
  cases p with
  | running u => exact hp.1.sameOutput u.nextBit_olen u.nextBit_out
  | ended u => exact hp

/-- `Emit` stores one byte (42_decode_loop.md R163). -/
theorem State.emit_appendsWithin {s : State} (hc : s.canAppend) (b : Byte) : (s.emit b).AppendsWithin 1 s := by
  have hb := State.StoresWithin.append hc b
  rw [State.emit_eq]
  split
  · exact hb.sameOutput rfl rfl
  · exact ⟨hb, State.canAppend_append b ‹_›⟩

/-- A copy loop stores at most a byte per iteration (41_backref_copy.md R144). -/
theorem State.copyLoop_appendsWithin (n : Nat) (a : Int) {s : State} (hc : s.canAppend) :
    (s.copyLoop n a).AppendsWithin n s := by
  induction n generalizing a s with
  | zero => exact ⟨.refl 0 s, hc⟩
  | succ n ih =>
    cases hm : s.memRead a with
    | none => rw [State.copyLoop_out hm]; exact (State.StoresWithin.refl _ s).sameOutput rfl rfl
    | some b =>
      rw [State.copyLoop_succ hm, Nat.add_comm]
      exact (State.emit_appendsWithin hc b).andThen fun u hu => ih (a + 1) hu

/-- A read of `IN` stores nothing, whether it fails or not (20_memory.md R66). -/
theorem State.StoresWithin.readThen {w : Nat} {s : State} (hc : s.canAppend) {f : State → State}
    (hf : ∀ u, u.canAppend → State.StoresWithin w u (f u)) : State.StoresWithin w s (s.readThen f) := by
  by_cases hl : s.ipos < s.ilen
  · rw [State.readThen_of_lt hl]
    obtain ⟨hframe, hlower, hupper⟩ := hf (s.advance 1) hc
    exact ⟨hframe, hlower, hupper⟩
  · rw [State.readThen_of_ge (by omega)]
    exact (State.StoresWithin.refl w s).sameOutput rfl rfl

/-- A nybble-pattern command stores at most its pair (40_dispatch_nybble_pattern.md R136). -/
theorem State.nybble_storesWithin (i : PatternIndex) (l : Nibble) {s : State} (hc : s.canAppend) :
    State.StoresWithin 2 s (s.nybble i l) := by
  refine .readThen hc fun u hu => ?_
  cases pattern i l with
  | none => exact (State.StoresWithin.refl 2 u).sameOutput rfl rfl
  | some p =>
    exact ((State.emit_appendsWithin hu p.1).andThen fun v hv => State.emit_appendsWithin hv p.2).finish

/-- Every command stores within its width from `OLEN` on (20_memory.md R70). -/
theorem exec_storesWithin {i : Instr} {s t : State} (hc : s.canAppend) (he : exec i s = .next t) :
    State.StoresWithin (storeWidth i) s t := by
  cases i <;> cases he
  case cmd c => exact .readThen hc fun u _ => (State.StoresWithin.refl 0 u).sameOutput rfl rfl
  case lit d => exact .readThen hc fun u hu => (State.emit_appendsWithin hu d).finish
  case copy h l o =>
    exact .readThen hc fun u hu => .readThen hu fun v hv => (State.copyLoop_appendsWithin (copyLength h) _ hv).finish
  all_goals exact State.nybble_storesWithin _ _ hc

/-- Settles O25: the bytes each command appends, one after another from `OLEN` on. -/
theorem commandsStoreOnlyFromOlen : Obligations.CommandsStoreOnlyFromOlen := by
  intro i s t hc he
  obtain ⟨hframe, hlower, hupper⟩ := exec_storesWithin hc he
  exact ⟨hframe, hlower, hupper⟩

/-! ## The result -/

theorem State.outBytes_length (s : State) : s.outBytes.length = s.olen.toNat := by simp [State.outBytes]

/-- The result's bytes are those of `OUT` (43_host_frontend.md R192). -/
theorem State.getD_outBytes {s : State} {a : Nat} (ha : a < s.olen.toNat) : s.outBytes.getD a 0 = s.out.read a := by
  simp [State.outBytes, ha]

theorem hostResult_success {s : State} (h : s.st = .success) : hostResult s = .next s.outBytes := if_pos h

/-- Everything a host read of `OUT` answers after a success (20_memory.md R68; log 11). -/
theorem hostReadOut_success {s : State} (h : s.st = .success) (a : Nat) :
    hostReadOut a s = if a < s.olen.toNat then .next (s.out.read a) else .fault (.outAddress a) := if_pos h

/-- At rest without a success there is no result, whole or byte by byte (20_memory.md R76). -/
theorem noResult_atRest {s : State} (hr : atRest s.st = true) (h : s.st ≠ .success) :
    hostResult s = .refused .noResult ∧ ∀ a : Nat, hostReadOut a s = .refused .noResult :=
  ⟨(if_neg h).trans (if_pos hr), fun _ => (if_neg h).trans (if_pos hr)⟩

/-- Settles O51: the result and the single reads are the same bytes of `OUT`; without a success both are refused. -/
theorem resultReadableOnlyOnSuccess : Obligations.ResultReadableOnlyOnSuccess := by
  intro s
  refine ⟨fun h => ⟨⟨s.outBytes, hostResult_success h, s.outBytes_length, fun a ha => ?_⟩, fun a ha => ?_⟩,
    noResult_atRest⟩
  · exact ⟨State.getD_outBytes ha, State.memRead_of_lt ha, (hostReadOut_success h a).trans (if_pos ha)⟩
  · exact (hostReadOut_success h a).trans (if_neg (Nat.not_lt.mpr ha))

end Sys2Proof.Machine
end

section
/-! The encoding of 30_encoding.md: the four formats of a command, decoder against encoder (R91 to R96, R99), the command
a step runs, how many nibbles the table can select, and the assembler's lines and their placement (R101, R102). -/

namespace Sys2Proof.Machine

/-! ## The four formats -/

/-- Case analysis by format (30_encoding.md R91, R92, R93, R96): the nine nybble-pattern commands are one case, over
their index. -/
theorem casesFormat {P : Instr → Prop} (cmd : ∀ c, P (.cmd c)) (lit : ∀ d, P (.lit d))
    (nyb : ∀ j h l, P (nybbleInstr j h l)) (copy : ∀ h l o, P (.copy h l o)) (i : Instr) : P i := by
  cases i with
  | cmd c => exact cmd c
  | lit d => exact lit d
  | nyb0 h l => exact nyb 0 h l
  | nyb1 h l => exact nyb 1 h l
  | nyb2 h l => exact nyb 2 h l
  | nyb3 h l => exact nyb 3 h l
  | nyb4 h l => exact nyb 4 h l
  | nyb5 h l => exact nyb 5 h l
  | nyb6 h l => exact nyb 6 h l
  | nyb7 h l => exact nyb 7 h l
  | nyb8 h l => exact nyb 8 h l
  | copy h l o => exact copy h l o

theorem slot_nybbleInstr (j : PatternIndex) (h l : Nibble) : (nybbleInstr j h l).slot = .mode := by
  fin_cases j <;> rfl

theorem highNibble_nybbleInstr (j : PatternIndex) (h l : Nibble) : (nybbleInstr j h l).highNibble = some h := by
  fin_cases j <;> rfl

@[simp] theorem wellFormed_cmd {slot : Slot} {cft : FlagTable} {c : Byte} :
    (Instr.cmd c).wellFormed slot cft = true ↔ slot = .command := by
  simp [Instr.wellFormed, Instr.slot, Instr.tableAgrees, Instr.highNibble, eq_comm (b := slot)]

@[simp] theorem wellFormed_lit {slot : Slot} {cft : FlagTable} {d : Byte} :
    (Instr.lit d).wellFormed slot cft = true ↔ slot = .literal := by
  simp [Instr.wellFormed, Instr.slot, Instr.tableAgrees, Instr.highNibble, eq_comm (b := slot)]

@[simp] theorem wellFormed_nybbleInstr {slot : Slot} {cft : FlagTable} {j : PatternIndex} {h l : Nibble} :
    (nybbleInstr j h l).wellFormed slot cft = true ↔ slot = .mode ∧ find cft h = some j := by
  simp [Instr.wellFormed, Instr.tableAgrees, slot_nybbleInstr, highNibble_nybbleInstr, patternIndex_nybbleInstr,
    eq_comm (b := slot)]

@[simp] theorem wellFormed_copy {slot : Slot} {cft : FlagTable} {h l : Nibble} {o : Byte} :
    (Instr.copy h l o).wellFormed slot cft = true ↔ slot = .mode ∧ find cft h = none := by
  simp [Instr.wellFormed, Instr.slot, Instr.tableAgrees, Instr.highNibble, Instr.patternIndex, eq_comm (b := slot)]

/-! ## Decoder and encoder -/

/-- Settles O1: the encoder puts the nibbles and bytes where the decoder looks for them. -/
theorem decodeOfEncode : Obligations.DecodeOfEncode := by
  intro slot cft i rest hwf
  cases i using casesFormat with
  | cmd c => rw [wellFormed_cmd.mp hwf]; exact decode_command cft c rest
  | lit d => rw [wellFormed_lit.mp hwf]; exact decode_literal cft d rest
  | nyb j h l =>
    obtain ⟨rfl, hf⟩ := wellFormed_nybbleInstr.mp hwf
    have hf' : find cft (hi (joinNibbles h l)) = some j := by rwa [hi_joinNibbles]
    rw [encode_nybbleInstr, List.singleton_append, decode_mode_found hf', hi_joinNibbles, lo_joinNibbles]
  | copy h l o =>
    obtain ⟨rfl, hf⟩ := wellFormed_copy.mp hwf
    have hf' : find cft (hi (joinNibbles h l)) = none := by rwa [hi_joinNibbles]
    exact (decode_mode_copy hf' o rest).trans (by rw [hi_joinNibbles, lo_joinNibbles])

/-- Settles O2: a mode byte is its two nibbles joined, so each byte taken is a byte of the encoding. -/
theorem encodeOfDecode : Obligations.EncodeOfDecode := by
  intro slot cft bytes rest i hd
  cases bytes with
  | nil => cases hd
  | cons b tail =>
    cases slot with
    | command => cases hd; exact ⟨wellFormed_cmd.mpr rfl, rfl⟩
    | literal => cases hd; exact ⟨wellFormed_lit.mpr rfl, rfl⟩
    | mode =>
      cases hf : find cft (hi b) with
      | some j =>
        rw [decode_mode_found hf] at hd
        cases hd
        exact ⟨wellFormed_nybbleInstr.mpr ⟨rfl, hf⟩, by simp [encode_nybbleInstr]⟩
      | none =>
        cases tail with
        | nil => rw [decode_mode_short hf] at hd; cases hd
        | cons o tail =>
          rw [decode_mode_copy hf] at hd
          cases hd
          exact ⟨wellFormed_copy.mpr ⟨rfl, hf⟩, by simp [encode]⟩

/-- Settles O3: of the decoder's branches only two answer an error, and neither looks at the value of a byte there. -/
theorem decoderRejectsOnlyMissingBytes : Obligations.DecoderRejectsOnlyMissingBytes := by
  intro slot cft bytes e
  cases bytes with
  | nil => simp [decode_nil, eq_comm]
  | cons b tail =>
    cases slot with
    | command => simp [decode_command]
    | literal => simp [decode_literal]
    | mode =>
      cases hf : find cft (hi b) with
      | some j => simp [decode_mode_found hf, hf]
      | none =>
        cases tail with
        | nil => simp [decode_mode_short hf, hf, eq_comm]
        | cons o tail => simp [decode_mode_copy hf]

/-- Settles O4: one equation of the selection or of the decoder for each clause. -/
theorem selectionByPositionAndTable : Obligations.SelectionByPositionAndTable := by
  intro cmd b o k cft rest
  refine ⟨⟨rfl, decode_command cft b _⟩, fun h => if_pos h, decode_literal cft b _,
    fun h => if_neg (Bool.eq_false_iff.mp h), fun i hf => ?_, fun hf => decode_mode_copy hf o rest⟩
  exact ⟨_, decode_mode_found hf _, patternIndex_nybbleInstr i _ _⟩

/-- Settles O5: the words are looked up and decoded as they stand. -/
theorem specWordsDecode : Obligations.SpecWordsDecode :=
  ⟨rfl, rfl, rfl, rfl, rfl, rfl, rfl, rfl⟩

/-! ## The command a step runs -/

/-- The encoding of every command has the length 30_encoding.md R94 gives it. -/
theorem encode_length (i : Instr) : (encode i).length = i.length := by
  cases i using casesFormat with
  | cmd c => exact Laws.EncodeLength.cmd c
  | lit d => exact Laws.EncodeLength.lit d
  | nyb j h l => rw [encode_nybbleInstr, length_nybbleInstr]; rfl
  | copy h l o => exact Laws.EncodeLength.copy h l o

/-- A command has one byte or two (30_encoding.md R94). -/
theorem length_le_two (i : Instr) : i.length ≤ 2 := by
  cases i using casesFormat with
  | cmd c => exact one_le_two
  | lit d => exact one_le_two
  | nyb j h l => rw [length_nybbleInstr]; exact one_le_two
  | copy h l o => exact le_rfl

/-- Looking further into the stream keeps the bytes already seen at the front. -/
theorem State.inBytes_prefix (s : State) {m n : Nat} (hmn : m ≤ n) (a : Nat) : s.inBytes a m <+: s.inBytes a n := by
  induction m generalizing n a with
  | zero => exact List.nil_prefix
  | succ m ih =>
    obtain ⟨n, rfl⟩ := Nat.exists_eq_add_of_lt hmn
    simp only [State.inBytes]
    cases s.inByte a with
    | none => exact List.nil_prefix
    | some b => exact List.cons_prefix_cons.mpr ⟨rfl, ih (by omega) (a + 1)⟩

/-- Settles O31: the bytes the fetch looks at begin with the command's encoding, so they decode to the command. -/
theorem stepRunsEncodedCommand : Obligations.StepRunsEncodedCommand := by
  intro s slot i hslot hwf hbytes
  obtain ⟨rest, hfetch⟩ := s.inBytes_prefix (length_le_two i) s.ipos
  rw [hbytes] at hfetch
  have hdec : decode slot s.cft s.fetchBytes = .ok (i, rest) := by
    rw [State.fetchBytes, ← hfetch]
    exact decodeOfEncode slot s.cft i rest hwf
  exact step_of_decode hslot hdec

/-! ## How many nibbles the table selects -/

@[simp] theorem lo_setWidth (h : Nibble) : lo (h.setWidth 8) = h := by
  revert h; decide

/-- Two nibbles never find the same index, for its entry equals both (40_dispatch_nybble_pattern.md R120). -/
theorem find_injective {cft : FlagTable} {h h' : Nibble} {i : PatternIndex} (hf : find cft h = some i)
    (hf' : find cft h' = some i) : h = h' := by
  have hw : h.setWidth 8 = h'.setWidth 8 := (find_some_eq hf).symm.trans (find_some_eq hf')
  simpa only [lo_setWidth] using congrArg lo hw

/-- Distinct nibbles find distinct indices, so at most nine of them find one. -/
theorem countP_found_le (cft : FlagTable) {hs : List Nibble} (hn : hs.Nodup) :
    hs.countP (fun h => (find cft h).isSome) ≤ 9 := by
  have hd : (hs.filterMap (find cft)).Nodup := hn.filterMap fun _ _ _ hf hf' => find_injective hf hf'
  calc hs.countP (fun h => (find cft h).isSome)
      = (hs.filterMap (find cft)).length := List.length_filterMap_eq_countP.symm
    _ ≤ Fintype.card PatternIndex := hd.length_le_card
    _ = 9 := rfl

/-- Settles O8: at most nine of the sixteen nibbles find an index. -/
theorem sevenNibblesSelectCopy : Obligations.SevenNibblesSelectCopy := by
  intro cft
  have hfound : (List.range 16).countP (fun n => (find cft (BitVec.ofNat 4 n)).isSome) ≤ 9 := by
    have h := countP_found_le cft (hs := (List.range 16).map (BitVec.ofNat 4)) (by decide)
    rwa [List.countP_map] at h
  have hsplit := (List.range 16).length_eq_countP_add_countP fun n => (find cft (BitVec.ofNat 4 n)).isSome
  have hcopy : (List.range 16).countP (fun n => find cft (BitVec.ofNat 4 n) == none) =
      (List.range 16).countP (fun n => decide ¬ (find cft (BitVec.ofNat 4 n)).isSome = true) :=
    List.countP_congr fun n _ => by simp
  rw [List.length_range] at hsplit
  rw [← List.countP_eq_length_filter]
  omega

/-! ## The assembler's lines -/

/-- A byte below 16 is its low nibble. -/
theorem setWidth_lo {b : Byte} (hb : b.toNat < 16) : (lo b).setWidth 8 = b := by
  apply BitVec.eq_of_toNat_eq
  simp [lo]
  omega

theorem asmNyb_of_entry {cft : FlagTable} {i : PatternIndex} {h : Nibble} (he : h.setWidth 8 = cft[i])
    (hf : find cft h = some i) (l : Nibble) : asmNyb cft i l = some (encode (nybbleInstr i h l)) := by
  have hlo : lo cft[i] = h := by rw [← he, lo_setWidth]
  have hlt : cft[i].toNat < 16 := by
    rw [← he, BitVec.toNat_setWidth]
    have := h.isLt
    omega
  rw [asmNyb, hlo, if_pos ⟨hlt, hf⟩]

theorem asmNyb_eq_none {cft : FlagTable} {i : PatternIndex}
    (hno : ∀ h : Nibble, h.setWidth 8 = cft[i] → find cft h ≠ some i) (l : Nibble) : asmNyb cft i l = none :=
  if_neg fun ⟨hlt, hf⟩ => hno _ (setWidth_lo hlt) hf

theorem copyLength_ofNat {len : Nat} (h3 : 3 ≤ len) (h18 : len ≤ 18) : copyLength (BitVec.ofNat 4 (len - 3)) = len := by
  rw [copyLength_eq, BitVec.toNat_ofNat]
  omega

/-- The two parts of `4096 - dist` are the operands that give `dist` back (30_encoding.md R98, R101). -/
theorem copyDistance_ofNat {dist : Nat} (h1 : 1 ≤ dist) (h4096 : dist ≤ 4096) :
    copyDistance (BitVec.ofNat 4 ((4096 - dist) / 256)) (BitVec.ofNat 8 (4096 - dist)) = dist := by
  rw [copyDistance_eq, BitVec.toNat_ofNat, BitVec.toNat_ofNat]
  omega

/-- Literals emit their bytes, under any table. -/
theorem assemble_lits (cft : FlagTable) (ds : List Byte) : assemble cft (ds.map AsmItem.lit) = some ds := by
  induction ds with
  | nil => rfl
  | cons d ds ih => simp [assemble, asmBytes, encode, ih]

/-- `LIT8` emits what its expansion emits (30_encoding.md R102). -/
theorem asmLit8_eq_assemble (cft : FlagTable) {ds : List Byte} (h1 : 1 ≤ ds.length) (h8 : ds.length ≤ 8) :
    asmLit8 ds = assemble cft (.cmd 0xFF :: ds.map AsmItem.lit) := by
  simp [asmLit8, h1, h8, assemble, assemble_lits, asmBytes, encode]

/-- Settles O59: each line that emits bytes emits the encoding of a command that may stand at a mode byte's position. -/
theorem assembledItemsDecode : Obligations.AssembledItemsDecode := by
  intro cft
  refine ⟨fun i l => ⟨fun h he hf => ?_, fun hno => asmNyb_eq_none hno l⟩, fun len dist => ⟨?_, fun hbad => ?_⟩,
    fun b => ⟨rfl, rfl, rfl⟩, fun ds => ⟨fun h1 h8 => asmLit8_eq_assemble cft h1 h8, fun hbad => ?_⟩⟩
  · exact ⟨_, asmNyb_of_entry he hf l,
      fun rest => decodeOfEncode .mode cft _ rest (wellFormed_nybbleInstr.mpr ⟨rfl, hf⟩)⟩
  · intro h3 h18 h1 h4096 hf
    exact ⟨_, _, _, _, if_pos ⟨h3, h18, h1, h4096, hf⟩,
      fun rest => decodeOfEncode .mode cft _ rest (wellFormed_copy.mpr ⟨rfl, hf⟩), copyLength_ofNat h3 h18,
      copyDistance_ofNat h1 h4096⟩
  · refine if_neg fun ⟨h3, h18, h1, h4096, hf⟩ => ?_
    simp only [hf, ne_eq, not_true_eq_false, or_false] at hbad
    omega
  · exact if_neg (by omega)

/-! ## The placement of the lines -/

/-- The command bits, by the number of the item they stand for (30_encoding.md R91). -/
theorem commandBits_getElem? (f : Byte) (k : BitVec 3) : (commandBits f)[k.toNat]? = some (msb f k) := by
  obtain ⟨n, hn⟩ := k
  interval_cases n <;> rfl

/-- The engine's counter `K` reaches the number of every item of a group. -/
theorem forall_lt_iff_forall_bitVec {n : Nat} (hn : n ≤ 8) {p : Nat → Prop} :
    (∀ k < n, p k) ↔ ∀ k : BitVec 3, k.toNat < n → p k.toNat := by
  constructor
  · exact fun h k => h k.toNat
  · intro h k hk
    have hmod : (BitVec.ofNat 3 k).toNat = k := by rw [BitVec.toNat_ofNat]; omega
    simpa only [hmod] using h (BitVec.ofNat 3 k) (by rwa [hmod])

theorem wellPlaced_nil (bits : List Bool) : wellPlaced bits [] = true := by
  cases bits <;> rfl

theorem wellPlaced_byte (bits : List Bool) (b : Byte) (items : List AsmItem) :
    wellPlaced bits (.byte b :: items) = items.all AsmItem.isByte := by
  cases bits <;> rfl

/-- Padding alone is well placed wherever it begins (30_encoding.md R101). -/
theorem wellPlaced_padding {rest : List AsmItem} (h : rest.all AsmItem.isByte = true) (bits : List Bool) :
    wellPlaced bits rest = true := by
  cases rest with
  | nil => exact wellPlaced_nil bits
  | cons y rest =>
    obtain ⟨hy, hrest⟩ := Bool.and_eq_true_iff.mp h
    cases y with
    | byte b => exact (wellPlaced_byte bits b rest).trans hrest
    | _ => cases hy

/-- A single item uses up one command bit, which must be its own (30_encoding.md R101). -/
theorem wellPlaced_item {x : AsmItem} (hx : x.itemBit ≠ none) (b : Bool) (bits : List Bool) (rest : List AsmItem) :
    wellPlaced (b :: bits) (x :: rest) = true ↔ x.itemBit = some b ∧ wellPlaced bits rest = true := by
  cases x with
  | lit d => simp [wellPlaced, AsmItem.itemBit, eq_comm (b := b)]
  | nyb i l => simp [wellPlaced, AsmItem.itemBit, eq_comm (b := b)]
  | copy len dist => simp [wellPlaced, AsmItem.itemBit, eq_comm (b := b)]
  | cmd f => exact absurd rfl hx
  | byte b => exact absurd rfl hx
  | lit8 ds => exact absurd rfl hx

/-- No single item stands where a command byte is due (30_encoding.md R101). -/
theorem wellPlaced_item_of_no_bits {x : AsmItem} (hx : x.itemBit ≠ none) (rest : List AsmItem) :
    wellPlaced [] (x :: rest) = false := by
  cases x with
  | lit d => rfl
  | nyb i l => rfl
  | copy len dist => rfl
  | cmd f => exact absurd rfl hx
  | byte b => exact absurd rfl hx
  | lit8 ds => exact absurd rfl hx

/-- No `CMD` and no `LIT8` stands where a command bit is left over (30_encoding.md R101). -/
theorem wellPlaced_group_of_bits {y : AsmItem} (hy : y.itemBit = none) (hb : y.isByte = false) {bits : List Bool}
    (hbits : bits ≠ []) (rest : List AsmItem) : wellPlaced bits (y :: rest) = false := by
  obtain ⟨b, bits, rfl⟩ := List.exists_cons_of_ne_nil hbits
  cases y with
  | cmd f => rfl
  | lit8 ds => rfl
  | byte b => cases hb
  | lit d => cases hy
  | nyb i l => cases hy
  | copy len dist => cases hy

/-- Items within the bits at hand agree with them one by one, and what follows is placed under the bits left
(30_encoding.md R101). -/
theorem wellPlaced_items {items : List AsmItem} (hitems : ∀ x ∈ items, x.itemBit ≠ none) (rest : List AsmItem)
    {bits : List Bool} (hlen : items.length ≤ bits.length) :
    wellPlaced bits (items ++ rest) = true ↔
      (∀ k < items.length, items[k]?.bind AsmItem.itemBit = bits[k]?) ∧
        wellPlaced (bits.drop items.length) rest = true := by
  induction items generalizing bits with
  | nil => simp
  | cons x items ih =>
    obtain ⟨hx, hitems⟩ := List.forall_mem_cons.mp hitems
    cases bits with
    | nil => cases hlen
    | cons b bits =>
      rw [List.cons_append, wellPlaced_item hx, ih hitems (Nat.le_of_succ_le_succ hlen), ← and_assoc, List.length_cons,
        Nat.forall_lt_succ_left]
      rfl

/-- The items after a command byte agree with its digits, and what follows is placed under the digits left. -/
theorem wellPlaced_cmd {items : List AsmItem} (hitems : ∀ x ∈ items, x.itemBit ≠ none) (hlen : items.length ≤ 8)
    (f : Byte) (rest : List AsmItem) :
    wellPlaced [] (.cmd f :: (items ++ rest)) = true ↔
      (∀ k : BitVec 3, k.toNat < items.length → items[k.toNat]?.bind AsmItem.itemBit = some (msb f k)) ∧
        wellPlaced ((commandBits f).drop items.length) rest = true := by
  simp only [← commandBits_getElem?]
  rw [← forall_lt_iff_forall_bitVec hlen (p := fun k => items[k]?.bind AsmItem.itemBit = (commandBits f)[k]?)]
  exact wellPlaced_items hitems rest hlen

/-- A `LIT8` uses up the digits of a command byte of all ones, as its literals do (30_encoding.md R102). -/
theorem wellPlaced_lit8 {ds : List Byte} (h8 : ds.length ≤ 8) (rest : List AsmItem) :
    wellPlaced [] (.lit8 ds :: rest) = wellPlaced [] (.cmd 0xFF :: (ds.map AsmItem.lit ++ rest)) := by
  have hlits : ∀ x ∈ ds.map AsmItem.lit, x.itemBit ≠ none := by simp [AsmItem.itemBit]
  have hones : ∀ k : BitVec 3, msb 0xFF k = true := by decide
  rw [Bool.eq_iff_iff, wellPlaced_cmd hlits (by simpa using h8), List.length_map]
  refine ⟨fun h => ⟨fun k hk => ?_, h⟩, fun h => h.2⟩
  rw [hones k]
  simp [hk, AsmItem.itemBit]

/-- Settles O60: a group's items use up its digits one by one, and its end is free, a command byte, or padding. -/
theorem placementFollowsCommandBits : Obligations.PlacementFollowsCommandBits := by
  refine ⟨wellPlaced_nil, wellPlaced_byte, fun f items rest hitems hlen hend => ?_,
    fun f items rest y hitems hlen hy hb => ?_, fun ds rest _ h8 => wellPlaced_lit8 h8 rest,
    fun x rest hx => wellPlaced_item_of_no_bits hx rest⟩
  · have hrest : wellPlaced ((commandBits f).drop items.length) rest = wellPlaced [] rest := by
      rcases hend with h | h
      · rw [h]; rfl
      · rw [wellPlaced_padding h, wellPlaced_padding h]
    rw [wellPlaced_cmd hitems hlen, hrest]
  · have hleft : (commandBits f).drop items.length ≠ [] := List.drop_eq_nil_iff.not.mpr (Nat.not_le.mpr hlen)
    rw [Bool.eq_false_iff, ne_eq, wellPlaced_cmd hitems hlen.le, wellPlaced_group_of_bits hy hb hleft]
    simp

end Sys2Proof.Machine
end

section
/-! The nybble-pattern commands of 40_dispatch_nybble_pattern.md: the control-flag lookup (R120, R121), the pair of an
index and a low nibble (R124, R125, R135), and what the nine commands append (R136). -/

namespace Sys2Proof.Machine

/-! ## The lookup -/

/-- The linear scan answers the first index whose entry equals the nibble (40_dispatch_nybble_pattern.md R120). -/
theorem find_eq_find? (cft : FlagTable) (h : Nibble) : find cft h = Fin.find? fun i => cft[i] == h.setWidth 8 :=
  (Fin.find?_eq_find?_finRange (p := fun i : PatternIndex => cft[i] == h.setWidth 8)).symm

/-- Settles O6: the scan stops at the first match. -/
theorem lookupIsFirstMatch : Obligations.LookupIsFirstMatch := by
  refine fun cft h => ⟨fun i => ?_, find_none_iff⟩
  rw [find_eq_find?, Fin.find?_eq_some_iff]
  simp only [beq_iff_eq, beq_eq_false_iff_ne]

/-- A byte of 16 or more is no nibble zero-extended, for nothing is masked (40_dispatch_nybble_pattern.md R121). -/
theorem ne_setWidth_of_le {v : Byte} (hv : 16 ≤ v.toNat) (h : Nibble) : v ≠ h.setWidth 8 := by
  rintro rfl
  rw [BitVec.toNat_setWidth] at hv
  have := h.isLt
  omega

/-- The scan may leave out an index whose entry is 16 or more (40_dispatch_nybble_pattern.md R121). -/
theorem find_eq_scan_without {cft : FlagTable} {i : PatternIndex} (hi : 16 ≤ cft[i].toNat) (h : Nibble) :
    find cft h = scanOrder.find? (fun j => j != i && cft[j] == h.setWidth 8) := by
  refine List.find?_congr fun j _ => ?_
  by_cases hj : j = i
  · subst hj
    simpa using ne_setWidth_of_le hi h
  · simp [hj]

/-- Settles O7: the scan without the index does not look at the entry, so any other such value gives the same scan. -/
theorem largeEntriesNeverMatch : Obligations.LargeEntriesNeverMatch := by
  intro cft i h hi
  refine ⟨fun hf => ne_setWidth_of_le hi h (find_some_eq hf), fun v hv => ?_, find_eq_scan_without hi h⟩
  have hset : 16 ≤ (cft.set i v)[i].toNat := by simpa using hv
  rw [find_eq_scan_without hset, find_eq_scan_without hi]
  refine List.find?_congr fun j _ => ?_
  by_cases hj : j = i
  · simp [hj]
  · have hne : (cft.set i v)[j] = cft[j] := Vector.getElem_set_ne _ _ (fun he => hj (Fin.ext he.symm))
    rw [hne]

/-! ## Exact nibbles -/

/-- The exact nibbles in 0..15 are the values of the 4-bit nibbles (40_dispatch_nybble_pattern.md R137). -/
theorem nibbleFits_iff {n : Int} : nibbleFits n = true ↔ ∃ x : Nibble, n = x.toNat := by
  simp only [nibbleFits, Bool.and_eq_true, decide_eq_true_eq]
  constructor
  · exact fun ⟨h0, h15⟩ => ⟨BitVec.ofNat 4 n.toNat, by rw [BitVec.toNat_ofNat]; omega⟩
  · rintro ⟨x, rfl⟩
    have := x.isLt
    omega

@[simp] theorem nibbleFits_toNat (l : Nibble) : nibbleFits l.toNat = true := nibbleFits_iff.mpr ⟨l, rfl⟩

/-- An increment leaves 0..15 from 15 alone (40_dispatch_nybble_pattern.md R124). -/
@[simp] theorem nibbleFits_add_one (l : Nibble) : nibbleFits (l.toNat + 1) = (l != 15) := by
  have := l.isLt
  rw [Bool.eq_iff_iff, bne_iff_ne, ne_eq, ← BitVec.toNat_inj, nibbleFits, Bool.and_eq_true, decide_eq_true_eq,
    decide_eq_true_eq, show (15 : Nibble).toNat = 15 from rfl]
  omega

/-- A decrement leaves 0..15 from 0 alone (40_dispatch_nybble_pattern.md R124). -/
@[simp] theorem nibbleFits_sub_one (l : Nibble) : nibbleFits (l.toNat - 1) = (l != 0) := by
  have := l.isLt
  rw [Bool.eq_iff_iff, bne_iff_ne, ne_eq, ← BitVec.toNat_inj, nibbleFits, Bool.and_eq_true, decide_eq_true_eq,
    decide_eq_true_eq, show (0 : Nibble).toNat = 0 from rfl]
  omega

@[simp] theorem ofInt_toNat_add_one (l : Nibble) : BitVec.ofInt 4 (l.toNat + 1) = l + 1 := by
  simp [BitVec.ofInt_add]

@[simp] theorem ofInt_toNat_sub_one (l : Nibble) : BitVec.ofInt 4 (l.toNat - 1) = l - 1 := by
  simp [Int.sub_eq_add_neg, BitVec.ofInt_add, BitVec.sub_eq_add_neg]

/-! ## The pair of an index and a low nibble -/

/-- The operand pairs whose exact nibbles leave 0..15 (the table of 40_dispatch_nybble_pattern.md R124). -/
def openPairs : List (PatternIndex × Nibble) := [(1, 15), (2, 0), (3, 0), (4, 0), (5, 0), (6, 15), (7, 15), (8, 15)]

/-- The closed forms of the nine patterns (the table of 40_dispatch_nybble_pattern.md R135). -/
def closedPair (i : PatternIndex) (l : Nibble) : Byte × Byte :=
  match i with
  | 0 => (joinNibbles l l, joinNibbles l l)
  | 1 => (joinNibbles l (l + 1), joinNibbles (l + 1) (l + 1))
  | 2 => (joinNibbles l (l - 1), joinNibbles l l)
  | 3 => (joinNibbles l l, joinNibbles (l - 1) l)
  | 4 => (joinNibbles l l, joinNibbles l (l - 1))
  | 5 => (joinNibbles l (l - 1), joinNibbles (l - 1) (l - 1))
  | 6 => (joinNibbles l (l + 1), joinNibbles l l)
  | 7 => (joinNibbles l l, joinNibbles (l + 1) l)
  | 8 => (joinNibbles l l, joinNibbles l (l + 1))

/-- Each index makes one kind of adjustment, which one low nibble alone does not admit (40_dispatch_nybble_pattern.md
R124). -/
theorem fits_eq_false_iff (i : PatternIndex) (l : Nibble) : (nibbles i l).fits = false ↔ (i, l) ∈ openPairs := by
  fin_cases i <;> simp [nibbles, baseValue, Quad.fits, openPairs]

/-- Reduced modulo 16, the exact nibbles are those of the closed form, in range or not. -/
theorem pair_nibbles (i : PatternIndex) (l : Nibble) : (nibbles i l).pair = closedPair i l := by
  fin_cases i <;> simp [nibbles, baseValue, Quad.pair, closedPair]

/-- Index 0, which the pattern treats apart, follows the general rule too (40_dispatch_nybble_pattern.md R125). -/
theorem pattern_eq_ite (i : PatternIndex) (l : Nibble) :
    pattern i l = if (nibbles i l).fits then some (nibbles i l).pair else Config.nybOvf i l := by
  by_cases hi : i = 0
  · subst hi
    have hf : (nibbles 0 l).fits = true := Bool.of_not_eq_false ((fits_eq_false_iff 0 l).not.mpr (by simp [openPairs]))
    rw [if_pos hf, pair_nibbles]
    exact pattern_zero l
  · exact if_neg hi

/-- Off the open pairs the pattern is the closed form (40_dispatch_nybble_pattern.md R135). -/
theorem pattern_eq_closedPair {i : PatternIndex} {l : Nibble} (h : (i, l) ∉ openPairs) :
    pattern i l = some (closedPair i l) := by
  have hf : (nibbles i l).fits = true := Bool.of_not_eq_false ((fits_eq_false_iff i l).not.mpr h)
  rw [pattern_eq_ite, if_pos hf, pair_nibbles]

/-- On the open pairs the pattern is the open parameter's (40_dispatch_nybble_pattern.md R124). -/
theorem pattern_eq_nybOvf {i : PatternIndex} {l : Nibble} (h : (i, l) ∈ openPairs) :
    pattern i l = Config.nybOvf i l := by
  have hf : (nibbles i l).fits = false := (fits_eq_false_iff i l).mpr h
  rw [pattern_eq_ite, if_neg (Bool.eq_false_iff.mp hf)]

/-- Where an index has one open low nibble, every other one gives its closed form (40_dispatch_nybble_pattern.md
R135). -/
theorem pattern_of_ne_open {i : PatternIndex} {l x : Nibble} (hx : ∀ y, (i, y) ∈ openPairs → y = x) (hl : l ≠ x) :
    pattern i l = some (closedPair i l) :=
  pattern_eq_closedPair fun h => hl (hx l h)

/-- Settles O9: the range of each row leaves out the one open low nibble of its index. -/
theorem patternClosedForms : Obligations.PatternClosedForms := fun l =>
  ⟨pattern_zero l, pattern_of_ne_open (by decide), pattern_of_ne_open (by decide), pattern_of_ne_open (by decide),
    pattern_of_ne_open (by decide), pattern_of_ne_open (by decide), pattern_of_ne_open (by decide),
    pattern_of_ne_open (by decide), pattern_of_ne_open (by decide)⟩

theorem orByte_toNat (x y : Nibble) : orByte x.toNat y.toNat = joinNibbles x y := by
  revert x y; decide

/-- Where both nibbles are in 0..15, OR without masking forms the same byte (93_implementation_defined.md U1). -/
theorem orByte_of_fits {a b : Int} (ha : nibbleFits a = true) (hb : nibbleFits b = true) :
    orByte a b = joinNibbles (BitVec.ofInt 4 a) (BitVec.ofInt 4 b) := by
  obtain ⟨x, rfl⟩ := nibbleFits_iff.mp ha
  obtain ⟨y, rfl⟩ := nibbleFits_iff.mp hb
  rw [orByte_toNat]
  simp

theorem nybU8Or_of_fits {i : PatternIndex} {l : Nibble} (hf : (nibbles i l).fits = true) :
    nybU8Or i l = nybMod16 i l := by
  simp only [Quad.fits, Bool.and_eq_true] at hf
  obtain ⟨⟨⟨h0, h1⟩, h2⟩, h3⟩ := hf
  rw [nybU8Or, orByte_of_fits h0 h1, orByte_of_fits h2 h3, nybMod16, Quad.pair]

/-- Settles O10: the open pairs are those that leave 0..15, and the instantiations differ only in how they reduce. -/
theorem eightPairsAreOpen : Obligations.EightPairsAreOpen :=
  ⟨fits_eq_false_iff, pattern_eq_ite, fun i l hf => ⟨(pattern_eq_ite i l).trans (if_pos hf), nybU8Or_of_fits hf⟩⟩

/-! ## Appending a list of bytes under the length stop -/

/-- The append that reaches the declared length is the command's last (42_decode_loop.md R163). -/
theorem State.afterAppends_stop {s : State} (hc : s.canAppend) {b : Byte} (bs : List Byte) (hd : s.dlen ≤ s.olen + 1) :
    s.afterAppends (b :: bs) = (s.append b).goto .done := by
  have hn : s.appendedCount (b :: bs).length = 1 := by
    have hl := State.canAppend_succ hc
    have hd' : s.dlen.toNat ≤ (s.olen + 1).toNat := hd
    simp only [State.appendedCount, List.length_cons]
    omega
  rw [State.afterAppends, hn]
  exact if_pos hd

/-- An append that does not reach the declared length leaves the rest of the bytes to append (42_decode_loop.md
R163). -/
theorem State.afterAppends_continue {s : State} (hc : s.canAppend) {b : Byte} (bs : List Byte)
    (hd : ¬ s.dlen ≤ s.olen + 1) : s.afterAppends (b :: bs) = (s.append b).afterAppends bs := by
  have hn : s.appendedCount (b :: bs).length = (s.append b).appendedCount bs.length + 1 := by
    have hl := State.canAppend_succ hc
    have hd' : ¬ s.dlen.toNat ≤ (s.olen + 1).toNat := hd
    simp only [State.appendedCount, List.length_cons, State.append_dlen, State.append_olen]
    omega
  rw [State.afterAppends, hn]
  rfl

/-- `Emit` and the rest of a command append a list if the rest appends its tail wherever the run goes on
(42_decode_loop.md R163). -/
theorem State.emit_andThen_finish {s : State} (hc : s.canAppend) {b : Byte} {bs : List Byte} {f : State → Progress}
    (hf : ¬ s.dlen ≤ s.olen + 1 → (f (s.append b)).finish = (s.append b).afterAppends bs) :
    ((s.emit b).andThen f).finish = s.afterAppends (b :: bs) := by
  rw [State.emit_eq]
  split
  · rw [State.afterAppends_stop hc bs ‹_›]
    rfl
  · rw [State.afterAppends_continue hc bs ‹_›]
    exact hf ‹_›

/-- A command's last `Emit` appends its last byte, whether it stops the run or not (42_decode_loop.md R163, R164). -/
theorem State.emit_finish_eq_afterAppends (b : Byte) (s : State) : (s.emit b).finish = s.afterAppends [b] := by
  have hn : s.appendedCount [b].length = 1 := min_eq_left (le_max_left _ _)
  rw [State.emit_finish, State.afterAppends, hn]
  rfl

/-! ## The nine commands -/

/-- A nybble-pattern command whose pattern answers a pair appends it (40_dispatch_nybble_pattern.md R136). -/
theorem exec_nybbleInstr_pair {s : State} (hl : s.ipos < s.ilen) (hc : s.canAppend) (h : Nibble) {i : PatternIndex}
    {l : Nibble} {p : Byte × Byte} (hp : pattern i l = some p) :
    exec (nybbleInstr i h l) s = .next ((s.advance 1).afterAppends [p.1, p.2]) := by
  rw [exec_nybbleInstr, State.nybble, State.readThen_of_lt hl, hp]
  have hc' : (s.advance 1).canAppend := hc
  exact congrArg Host.Outcome.next (State.emit_andThen_finish hc' fun _ => State.emit_finish_eq_afterAppends p.2 _)

/-- A nybble-pattern command whose pattern answers a fault appends nothing (40_dispatch_nybble_pattern.md R136). -/
theorem exec_nybbleInstr_fault {s : State} (hl : s.ipos < s.ilen) (h : Nibble) {i : PatternIndex} {l : Nibble}
    (hp : pattern i l = none) : exec (nybbleInstr i h l) s = .next ((s.advance 1).raise .nybbleRange) := by
  rw [exec_nybbleInstr, State.nybble, State.readThen_of_lt hl, hp]

/-- Settles O19: each command appends the closed form of its index. -/
theorem nybbleCommandsAppendPairs : Obligations.NybbleCommandsAppendPairs := by
  intro h l s hl hc
  obtain ⟨h0, h1, h2, h3, h4, h5, h6, h7, h8⟩ := patternClosedForms l
  have run {i : PatternIndex} {p : Byte × Byte} (hp : pattern i l = some p) := exec_nybbleInstr_pair hl hc h hp
  exact ⟨run h0, fun hne => run (h1 hne), fun hne => run (h2 hne), fun hne => run (h3 hne), fun hne => run (h4 hne),
    fun hne => run (h5 hne), fun hne => run (h6 hne), fun hne => run (h7 hne), fun hne => run (h8 hne)⟩

/-- Settles O20: the eight commands are those of the open pairs, where the pattern is the open parameter's. -/
theorem nybbleOpenPairsFollowParameter : Obligations.NybbleOpenPairsFollowParameter := by
  intro h s hl hc c hmem
  have hopen : c ∈ openPairs.map fun q => (nybbleInstr q.1 h q.2, q.1, q.2) := hmem
  obtain ⟨⟨i, l⟩, hil, rfl⟩ := List.mem_map.mp hopen
  cases hn : Config.nybOvf i l with
  | some p => simpa only [hn] using exec_nybbleInstr_pair hl hc h ((pattern_eq_nybOvf hil).trans hn)
  | none => simpa only [hn] using exec_nybbleInstr_fault hl h ((pattern_eq_nybOvf hil).trans hn)

end Sys2Proof.Machine
end

section
/-! The back-reference copy of 41_backref_copy.md: its operands (R141), the source slot of a ring (R149), a copy that
reaches before the output (R143), and the periodic bytes of a copy in range (R144, R148). -/

namespace Sys2Proof.Machine

/-! ## The operands -/

theorem copyOffset_eq (l : Nibble) (o : Byte) : copyOffset l o = -4096 + l.toNat * 256 + o.toNat := by
  rw [copyOffset, off12_toNat, Config.window]
  omega

/-- The sign bit in front of the offset field takes 4096 off it (41_backref_copy.md R141). -/
theorem toInt_signed_offset (l : Nibble) (o : Byte) : ((1 : BitVec 1) ++ l ++ o).toInt = copyOffset l o := by
  have hsign : (1 : BitVec 1).toInt = -1 := rfl
  rw [copyOffset_eq, BitVec.toInt_append, if_neg (by decide), BitVec.toInt_append, if_neg (by decide), hsign]
  omega

/-- Settles O15: the bounds of `OFF` are those of `dist`, its negation. -/
theorem copyOperandsExact : Obligations.CopyOperandsExact := by
  intro h l o
  have hneg := copyOffset_eq_neg l o
  have hpos := copyDistance_pos l o
  have hle := copyDistance_le l o
  exact ⟨copyLength_eq h, copyLength_le h, copyOffset_eq l o, by omega, by omega, toInt_signed_offset l o, by omega⟩

theorem copyDistance_add_off12 (l : Nibble) (o : Byte) : copyDistance l o + (off12 l o).toNat = 4096 :=
  Nat.sub_add_cancel (off12_lt l o).le

/-- Settles O16: the offset field added to `OLEN` is one turn of the ring ahead of the byte `dist` back. -/
theorem ringSlotIsDistanceBack : Obligations.RingSlotIsDistanceBack := by
  intro l o n hd
  have hturn : n + (off12 l o).toNat = n - copyDistance l o + 4096 := by
    have := copyDistance_add_off12 l o
    omega
  rw [hturn, Nat.add_mod_right]

/-! ## Running a copy -/

/-- A `COPY` whose two bytes are there is its copy loop, from the source address formed on entry (41_backref_copy.md R140,
R142). -/
theorem exec_copy_of_le {s : State} (hl : s.ipos + 2 ≤ s.ilen) (h l : Nibble) (o : Byte) :
    exec (.copy h l o) s = .next ((s.advance 2).copyLoop (copyLength h) (s.copySource l o)).finish :=
  congrArg Host.Outcome.next (State.readThen_readThen hl _)

/-- Settles O22: the source address is negative, so the first iteration already fails. -/
theorem copyBeforeStartRaises : Obligations.CopyBeforeStartRaises := by
  intro h l o s hl hd
  rw [← copyDistance_eq] at hd
  have hread : (s.advance 2).memRead (s.copySource l o) = none :=
    State.memRead_of_neg ((s.copySource_neg_iff l o).mpr hd)
  rw [exec_copy_of_le hl, copyLength_eq, State.copyLoop_out hread]
  rfl

/-! ## Copies in range append periodic bytes -/

/-- Appending the byte `dist` back moves the period on by one byte (41_backref_copy.md R144, R148). -/
theorem State.periodicBytes_succ {s : State} (hc : s.canAppend) (hw : s.out.wf = true) {dist : Nat} (hpos : 0 < dist)
    (hd : dist ≤ s.olen.toNat) (n : Nat) :
    s.periodicBytes (n + 1) dist =
      s.out.read (s.olen.toNat - dist) ::
        (s.append (s.out.read (s.olen.toNat - dist))).periodicBytes n dist := by
  have hl := State.canAppend_succ hc
  simp only [State.periodicBytes, List.range_succ_eq_map, List.map_cons, List.map_map, Nat.zero_mod, Nat.add_zero,
    State.append_olen, State.append_out, hl]
  refine congrArg _ (List.map_congr_left fun c _ => ?_)
  have hlt := Nat.mod_lt c hpos
  simp only [Function.comp_apply, Nat.succ_eq_add_one]
  rw [← Nat.mod_add_mod c dist 1]
  rcases Nat.lt_or_ge (c % dist + 1) dist with hin | hend
  · have haddr : s.olen.toNat + 1 - dist + c % dist = s.olen.toNat - dist + (c % dist + 1) := by omega
    rw [haddr, Memory.read_write_other _ (by omega), Nat.mod_eq_of_lt hin]
  · have haddr : s.olen.toNat + 1 - dist + c % dist = s.olen.toNat := by omega
    have hwrap : c % dist + 1 = dist := by omega
    rw [haddr, Memory.read_write_same hw, hwrap, Nat.mod_self, Nat.add_zero]

/-- Nothing appended below the declared length: the command goes on (42_decode_loop.md R164). -/
theorem State.afterAppends_nil {s : State} (h : s.olen < s.dlen) : s.afterAppends [] = s.nextBit :=
  if_neg (BitVec.not_le.mpr h)

/-- The copy loop from `dist` bytes back appends the periodic bytes, under the length stop (41_backref_copy.md R144, R145,
R148). -/
theorem State.copyLoop_finish_eq_afterAppends (n : Nat) {s : State} (hc : s.canAppend) (hw : s.out.wf = true)
    {dist : Nat} (hpos : 0 < dist) (hd : dist ≤ s.olen.toNat) :
    (s.copyLoop n (s.olen.toNat - dist : Nat)).finish = s.afterAppends (s.periodicBytes n dist) := by
  induction n generalizing s with
  | zero =>
    have hne : s.olen ≠ 0 := fun h0 => absurd (hpos.trans_le hd) (by simp [h0])
    exact (State.afterAppends_nil (hc.resolve_right fun ⟨_, h0⟩ => hne h0)).symm
  | succ n ih =>
    have hl := State.canAppend_succ hc
    rw [State.copyLoop_succ (State.memRead_of_lt (by omega)), State.periodicBytes_succ hc hw hpos hd]
    refine State.emit_andThen_finish hc fun hstop => ?_
    have hnext : ((s.olen.toNat - dist : Nat) : Int) + 1 = ((s.olen + 1).toNat - dist : Nat) := by omega
    rw [hnext]
    exact ih (State.canAppend_append _ hstop) (Memory.wf_write _ _ hw) (by rw [State.append_olen, hl]; omega)

/-- Settles O21: both reads leave the output alone, and the source address is `dist` bytes back. -/
theorem copyAppendsPeriodicBytes : Obligations.CopyAppendsPeriodicBytes := by
  intro h l o s hl hc hw hd
  have hpos := copyDistance_pos l o
  rw [← copyDistance_eq] at hd ⊢
  rw [exec_copy_of_le hl, State.copySource_of_le hd, copyLength_eq]
  exact congrArg Host.Outcome.next
    (State.copyLoop_finish_eq_afterAppends (s := s.advance 2) (h.toNat + 3) hc hw hpos hd)

end Sys2Proof.Machine
end

section
/-! The decode loop of 42_decode_loop.md, step by step: single commands (R161, R163, R167), the transition table (R160), and
what a step does not look at: bytes after its command (R267), and `CLEN` before the final check (R166). -/

namespace Sys2Proof.Machine

/-! ## Single commands -/

/-- Settles O12: the length stop is tested on the output after the append. -/
theorem emitAppendsAndTestsLength : Obligations.EmitAppendsAndTestsLength := State.emit_eq

theorem exec_cmd_of_lt {s : State} (hl : s.ipos < s.ilen) (c : Byte) :
    exec (.cmd c) s = .next ((s.advance 1).latch c) :=
  congrArg Host.Outcome.next (State.readThen_of_lt hl _)

theorem exec_lit_of_lt {s : State} (hl : s.ipos < s.ilen) (d : Byte) :
    exec (.lit d) s = .next ((s.advance 1).append d).settle :=
  congrArg Host.Outcome.next ((State.readThen_of_lt hl _).trans (State.emit_finish d _))

/-- Settles O17: the one read succeeds, and the byte is latched. -/
theorem cmdLatchesEightBits : Obligations.CmdLatchesEightBits := fun c _ hl => exec_cmd_of_lt hl c

/-- Settles O18: the one read succeeds, and the append is settled by the length stop or by the next bit. -/
theorem litAppendsItsByte : Obligations.LitAppendsItsByte := fun d _ hl => exec_lit_of_lt hl d

/-! ## The step in each state of the engine -/

theorem step_done {s : State} (hst : s.st = .done) : step s = .next s.finalCheck := by
  simp [step, State.slot, selectSlot, hst]

/-- The final check in one equation (42_decode_loop.md R166). -/
theorem State.finalCheck_eq (s : State) :
    s.finalCheck =
      if s.clen.toNat = s.ipos + s.hlen.toNat then s.goto .success else s.raise .invalidDecompressedLength := by
  simp [State.finalCheck, State.lengthAccounted]

/-- Settles O33: in `Done` the step is the final check. -/
theorem doneStepChecksConsumedLength : Obligations.DoneStepChecksConsumedLength := fun s hst =>
  (step_done hst).trans (congrArg Host.Outcome.next s.finalCheck_eq)

theorem step_of_atRest {s : State} (h : atRest s.st = true) : step s = s.rest := by
  cases hst : s.st <;> simp_all [step, State.slot, selectSlot, atRest]

theorem running_or_done_of_not_atRest {s : State} (h : atRest s.st = false) : s.running ∨ s.st = .done := by
  cases hst : s.st <;> simp_all [atRest, State.running]

theorem State.running.slot {s : State} (h : s.running) : ∃ slot, s.slot = some slot := by
  rcases h with hst | hst
  · exact ⟨.command, by simp [State.slot, selectSlot, hst]⟩
  · obtain ⟨slot, hslot, _⟩ := State.slot_of_processBit hst
    exact ⟨slot, hslot⟩

/-- During a run the engine always takes a step: a command always answers, and a missing byte is a fault
(42_decode_loop.md R160). -/
theorem exists_step_of_not_atRest {s : State} (h : atRest s.st = false) : ∃ t, step s = .next t := by
  rcases running_or_done_of_not_atRest h with hrun | hdone
  · obtain ⟨slot, hslot⟩ := hrun.slot
    cases hd : decode slot s.cft s.fetchBytes with
    | ok p => rw [step_of_decode hslot hd]; exact exec_next p.1 s
    | error e => exact ⟨_, step_of_decode_error hslot hd⟩
  · exact ⟨_, step_done hdone⟩

/-- Settles O34: at rest the step is the stop of `State.rest`, during a run it always answers. -/
theorem engineAtRestTakesNoStep : Obligations.EngineAtRestTakesNoStep := by
  refine fun s => ⟨⟨fun ⟨_, ht⟩ => not_atRest_of_step ht, exists_step_of_not_atRest⟩, fun hst => ?_, fun hst => ?_⟩
  · have hrest : atRest s.st = true := by rcases hst with hst | hst <;> rw [hst] <;> rfl
    have hne : s.st ≠ .failed := by rcases hst with hst | hst <;> simp [hst]
    exact (step_of_atRest hrest).trans (if_neg hne)
  · exact (step_of_atRest (by rw [hst]; rfl)).trans (if_pos hst)

/-! ## The transition table -/

/-- A step with no byte left raises `IOError`, whichever slot the byte is wanted for (60_exceptions.md R212). -/
theorem step_of_noByte {s : State} (hr : s.running) (hl : s.ilen ≤ s.ipos) : step s = .next (s.raise .ioError) := by
  obtain ⟨slot, hslot⟩ := hr.slot
  have hbytes : s.fetchBytes = [] := by rw [State.fetchBytes_eq, if_neg (by omega), if_neg (by omega)]
  exact step_of_decode_error hslot (by rw [hbytes, decode_nil])

theorem State.fetchBytes_cons {s : State} (hl : s.ipos < s.ilen) : ∃ rest, s.fetchBytes = s.inp.read s.ipos :: rest := by
  rw [State.fetchBytes_eq]
  split_ifs <;> exact ⟨_, rfl⟩

/-- The step in `ReadCommandByte` (42_decode_loop.md R160, R161). -/
theorem step_readCommandByte {s : State} (hst : s.st = .readCommandByte) (hl : s.ipos < s.ilen) :
    step s = .next ((s.advance 1).latch (s.inp.read s.ipos)) := by
  obtain ⟨rest, hbytes⟩ := State.fetchBytes_cons hl
  have hslot : s.slot = some .command := by simp [State.slot, selectSlot, hst]
  rw [step_of_decode hslot (by rw [hbytes, decode_command]), exec_cmd_of_lt hl]

/-- Where an item command that started in `s` stands before its first append. -/
structure State.BeforeItem (s u : State) : Prop where
  k : u.k = s.k
  st : u.st = .processBit
  olen : u.olen = s.olen
  dlen : u.dlen = s.dlen

/-- Where an item command that started in `s` stands after an append that did not stop the run: there is room for a byte,
and within a run, where `OLEN` does not wrap, the output has grown. -/
structure State.WithinItem (s u : State) : Prop where
  k : u.k = s.k
  st : u.st = .processBit
  room : u.olen < u.dlen
  grown : s.canAppend → s.olen.toNat < u.olen.toNat

/-- What an item step from `s` leads to: the four rows of `ProcessBit` in the table of 42_decode_loop.md R160. -/
inductive State.ItemOutcome (s t : State) : Prop
  | nextBit (st : t.st = .processBit) (more : s.k < 7) (k : t.k = s.k + 1) (room : t.olen < t.dlen)
      (grown : s.canAppend → s.olen.toNat < t.olen.toNat)
  | nextCommand (st : t.st = .readCommandByte) (last : s.k = 7) (room : t.olen < t.dlen)
      (grown : s.canAppend → s.olen.toNat < t.olen.toNat)
  | lengthStop (st : t.st = .done) (reached : t.dlen ≤ t.olen)
  | failed (st : t.st = .failed) (err : t.err = .ioError ∨ t.err = .backRefOutOfRange ∨ t.err = .nybbleRange)

theorem State.BeforeItem.append {s u : State} (h : s.BeforeItem u) (b : Byte) (hd : ¬ u.dlen ≤ u.olen + 1) :
    s.WithinItem (u.append b) where
  k := h.k
  st := h.st
  room := BitVec.not_le.mp hd
  grown := fun hc => by
    have hu : u.canAppend := by rwa [State.canAppend, h.olen, h.dlen]
    rw [State.append_olen, State.canAppend_succ hu, h.olen]
    exact Nat.lt_succ_self _

theorem State.WithinItem.append {s u : State} (h : s.WithinItem u) (b : Byte) (hd : ¬ u.dlen ≤ u.olen + 1) :
    s.WithinItem (u.append b) where
  k := h.k
  st := h.st
  room := BitVec.not_le.mp hd
  grown := fun hc => by
    rw [State.append_olen, State.canAppend_succ (.inl h.room)]
    exact Nat.lt_succ_of_lt (h.grown hc)

theorem eq_seven_of_not_lt {k : BitVec 3} (h : ¬ k < 7) : k = 7 := by
  revert k; decide

/-- Going on after an item is the row of the next bit, or of the next command byte (42_decode_loop.md R164). -/
theorem State.WithinItem.nextBit {s u : State} (h : s.WithinItem u) : s.ItemOutcome u.nextBit := by
  obtain ⟨hk, hst, hroom, hgrown⟩ := h
  by_cases hlt : u.k < 7
  · rw [State.nextBit_of_lt hlt]
    exact .nextBit hst (hk ▸ hlt) (congrArg (· + 1) hk) hroom hgrown
  · rw [State.nextBit_of_last hlt]
    exact .nextCommand rfl (hk ▸ eq_seven_of_not_lt hlt) hroom hgrown

/-- The rows of the table, through the phases of an item command. -/
theorem itemOutcome_phases (s : State) : ItemPhases s.BeforeItem s.WithinItem s.ItemOutcome where
  read := fun _ h _ => ⟨h.k, h.st, h.olen, h.dlen⟩
  first := fun b _ h hd => h.append b hd
  later := fun b _ h hd => h.append b hd
  stopFirst := fun _ _ _ hd => .lengthStop rfl hd
  stopLater := fun _ _ _ hd => .lengthStop rfl hd
  raiseIOError := fun _ _ _ => .failed rfl (.inl rfl)
  raiseNybbleRange := fun _ _ => .failed rfl (.inr (.inr rfl))
  raiseFirst := fun _ _ => .failed rfl (.inr (.inl rfl))
  raiseLater := fun _ _ => .failed rfl (.inr (.inl rfl))
  next := fun _ h => h.nextBit

/-- The step in `ProcessBit` (42_decode_loop.md R160). -/
theorem step_processBit {s t : State} (hst : s.st = .processBit) (h : step s = .next t) : s.ItemOutcome t := by
  rcases step_inversion h with ⟨hst', _⟩ | ⟨_, i, hi, hexec⟩ | ⟨_, rfl⟩ | ⟨_, _, rfl⟩ | ⟨hst', _⟩
  · simp [hst] at hst'
  · exact (itemOutcome_phases s).exec hi hexec ⟨rfl, hst, rfl, rfl⟩
  · exact .failed rfl (.inl rfl)
  · exact .failed rfl (.inl rfl)
  · simp [hst] at hst'

/-- Settles O35: one row or pair of rows for each of the three states that take a step. -/
theorem transitionsFollowTheTable : Obligations.TransitionsFollowTheTable := by
  refine fun s t h => ⟨fun hst => ?_, fun hst => ?_, fun hst => ?_⟩
  · by_cases hl : s.ipos < s.ilen
    · cases (step_readCommandByte hst hl).symm.trans h
      exact .inl ⟨hl, rfl, rfl⟩
    · cases (step_of_noByte (.inl hst) (Nat.not_lt.mp hl)).symm.trans h
      exact .inr ⟨Nat.not_lt.mp hl, rfl, rfl⟩
  · cases step_processBit hst h with
    | nextBit st more k room => exact .inl ⟨st, more, k, room⟩
    | nextCommand st last room => exact .inr (.inl ⟨st, last, room⟩)
    | lengthStop st reached => exact .inr (.inr (.inl ⟨st, reached⟩))
    | failed st err => exact .inr (.inr (.inr ⟨st, err⟩))
  · cases (step_done hst).symm.trans h
    rw [State.finalCheck_eq]
    split
    · exact .inl ⟨rfl, ‹_›⟩
    · exact .inr ⟨rfl, rfl, ‹_›⟩

/-- A declared length of 0 is reached by the first append (42_decode_loop.md R168). -/
structure State.Undeclared (u : State) : Prop where
  dlen : u.dlen = 0
  olen : u.olen = 0

theorem State.Undeclared.stop {u : State} (h : u.Undeclared) : u.dlen ≤ u.olen + 1 := by
  rw [h.dlen]; exact Nat.zero_le _

/-- With `DLEN = 0` an item command never gets past its first append. -/
theorem undeclared_phases :
    ItemPhases State.Undeclared (fun _ => False) fun t => t.st = .failed ∨ (t.st = .done ∧ t.olen = 1) where
  read := fun _ h _ => ⟨h.dlen, h.olen⟩
  first := fun _ _ h hd => hd h.stop
  later := fun _ _ h _ => h
  stopFirst := fun _ _ h _ => .inr ⟨rfl, by simp [h.olen]⟩
  stopLater := fun _ _ h _ => h.elim
  raiseIOError := fun _ _ _ => .inl rfl
  raiseNybbleRange := fun _ _ => .inl rfl
  raiseFirst := fun _ _ => .inl rfl
  raiseLater := fun _ h => h.elim
  next := fun _ h => h.elim

/-- Settles O30: the first append already stops the run. -/
theorem zeroDeclaredLengthAppendsOne : Obligations.ZeroDeclaredLengthAppendsOne :=
  fun _ _ _ hd ho _ hi hexec hne => (undeclared_phases.exec hi hexec ⟨hd, ho⟩).resolve_left hne

/-! ## What a step does not look at -/

/-- A command whose bytes are all there, on both sides, commutes with a change of state that its operations do not
notice. -/
theorem exec_commutes {f : State → State} (h : CommutesWithOps f)
    (hlatch : ∀ c s, (f s).latch c = f (s.latch c)) (i : Instr) {s : State} (hl : s.ipos + i.length ≤ s.ilen)
    (hl' : (f s).ipos + i.length ≤ (f s).ilen) : exec i (f s) = mapNext f (exec i s) := by
  by_cases hi : ∃ c, i = .cmd c
  · obtain ⟨c, rfl⟩ := hi
    rw [exec_cmd_of_lt hl, exec_cmd_of_lt hl', h.advance, hlatch]
    rfl
  · exact h.exec (not_exists.mp hi) hl hl'

/-- No operation of a command looks at the stream itself: its bytes were taken by the fetch (log 16). -/
theorem commutes_withInput (m : Memory) (n : Nat) : CommutesWithOps (State.withInput m n) where
  advance := fun _ _ => rfl
  raise := fun _ _ => rfl
  append := fun _ _ => rfl
  nextBit := fun _ => by rw [State.nextBit, State.nextBit, apply_ite (State.withInput m n)]; rfl
  goto := fun _ _ => rfl
  olen := fun _ => rfl
  dlen := fun _ => rfl
  out := fun _ => rfl

theorem State.inBytes_length (s : State) (a n : Nat) : (s.inBytes a n).length = min n (s.ilen - a) := by
  induction n generalizing a with
  | zero => simp [State.inBytes]
  | succ n ih =>
    by_cases hl : a < s.ilen
    · simp only [State.inBytes, State.inByte_of_lt hl, List.length_cons, ih]; omega
    · simp only [State.inBytes, State.inByte_of_ge (Nat.not_lt.mp hl), List.length_nil]; omega

theorem length_pos (i : Instr) : 0 < i.length := by
  cases i using casesFormat with
  | cmd c => exact Nat.one_pos
  | lit d => exact Nat.one_pos
  | nyb j h l => rw [length_nybbleInstr]; exact Nat.one_pos
  | copy h l o => exact Nat.two_pos

/-- Where the bytes of a command stand at `IPOS`, the stream has them all. -/
theorem State.length_le_of_inBytes {s : State} {i : Instr} (h : s.inBytes s.ipos i.length = encode i) :
    s.ipos + i.length ≤ s.ilen := by
  have hlen := congrArg List.length h
  have hpos := length_pos i
  rw [State.inBytes_length, encode_length] at hlen
  omega

/-- Settles O36: both steps run the same command, and the command does not look at the stream. -/
theorem unreadBytesDoNotMatter : Obligations.UnreadBytesDoNotMatter := by
  intro s slot i m n hslot hwf hbytes hbytes'
  rw [stepRunsEncodedCommand s slot i hslot hwf hbytes,
    stepRunsEncodedCommand (s.withInput m n) slot i hslot hwf hbytes']
  exact exec_commutes (commutes_withInput m n) (fun _ _ => rfl) i (State.length_le_of_inBytes hbytes)
    (State.length_le_of_inBytes (s := s.withInput m n) hbytes')

/-! ## The container length -/

/-- `s` with another container length. -/
def State.withClen (c : BitVec 16) (s : State) : State := { s with clen := c }

/-- No operation of a command looks at `CLEN`: the final check alone does (42_decode_loop.md R166). -/
theorem commutes_withClen (c : BitVec 16) : CommutesWithOps (State.withClen c) where
  advance := fun _ _ => rfl
  raise := fun _ _ => rfl
  append := fun _ _ => rfl
  nextBit := fun _ => by rw [State.nextBit, State.nextBit, apply_ite (State.withClen c)]; rfl
  goto := fun _ _ => rfl
  olen := fun _ => rfl
  dlen := fun _ => rfl
  out := fun _ => rfl

/-- Before `Done` a step does not look at the container length. -/
theorem step_withClen {s : State} (hr : s.running) (c : BitVec 16) :
    step (s.withClen c) = mapNext (State.withClen c) (step s) := by
  obtain ⟨slot, hslot⟩ := hr.slot
  have hslot' : (s.withClen c).slot = some slot := hslot
  have hdec : decode slot (s.withClen c).cft (s.withClen c).fetchBytes = decode slot s.cft s.fetchBytes := by
    rw [State.fetchBytes_eq, State.fetchBytes_eq]; rfl
  cases hd : decode slot s.cft s.fetchBytes with
  | error e =>
    rw [step_of_decode_error hslot hd, step_of_decode_error hslot' (hdec.trans hd)]
    cases e <;> rfl
  | ok p =>
    have hl := State.fetch_length (s := s) (slot := slot) (i := p.1) (by simp [State.fetch, hd])
    rw [step_of_decode hslot hd, step_of_decode hslot' (hdec.trans hd)]
    exact exec_commutes (commutes_withClen c) (fun _ _ => rfl) p.1 hl hl

theorem runToRest_succ {s t : State} (h : step s = .next t) (n : Nat) : runToRest (n + 1) s = runToRest n t := by
  simp [runToRest, h]

/-- At rest no more steps are taken (42_decode_loop.md R160). -/
theorem runToRest_of_atRest {s : State} (h : atRest s.st = true) (n : Nat) : runToRest n s = s := by
  cases n with
  | zero => rfl
  | succ n =>
    rw [runToRest, step_of_atRest h]
    unfold State.rest
    split_ifs <;> rfl

/-- A step of a command goes on, ends in `Done` or fails (42_decode_loop.md R160). -/
theorem step_running {s t : State} (hr : s.running) (h : step s = .next t) :
    t.running ∨ t.st = .done ∨ t.st = .failed := by
  obtain ⟨hcommand, hitem, _⟩ := transitionsFollowTheTable s t h
  rcases hr with hst | hst
  · rcases hcommand hst with ⟨_, ht, _⟩ | ⟨_, ht, _⟩
    · exact .inl (.inr ht)
    · exact .inr (.inr ht)
  · rcases hitem hst with ⟨ht, _⟩ | ⟨ht, _⟩ | ⟨ht, _⟩ | ⟨ht, _⟩
    · exact .inl (.inr ht)
    · exact .inl (.inl ht)
    · exact .inr (.inl ht)
    · exact .inr (.inr ht)

theorem step_clen {s t : State} (h : step s = .next t) : t.clen = s.clen := by
  obtain ⟨_, _, hclen, _⟩ := (sameConfig_kept s).step h s.sameConfig_refl
  exact hclen

/-- The state has failed the final check. -/
abbrev State.failedLength (s : State) : Prop := s.st = .failed ∧ s.err = .invalidDecompressedLength

/-- From `Done`, a container length that passes the final check leaves no other that does (42_decode_loop.md R166). -/
theorem runToRest_withClen_of_done {n : Nat} {s : State} {c : BitVec 16} (hst : s.st = .done) (hc : c ≠ s.clen)
    (h : (runToRest (n + 1) s).st = .success) : (runToRest (n + 1) (s.withClen c)).failedLength := by
  have hst' : (s.withClen c).st = .done := hst
  rw [runToRest_succ (step_done hst), State.finalCheck_eq] at h
  rw [runToRest_succ (step_done hst'), State.finalCheck_eq]
  split_ifs at h with hpass
  · have hne : ¬ (s.withClen c).clen.toNat = (s.withClen c).ipos + (s.withClen c).hlen.toNat :=
      fun hc' => hc (BitVec.eq_of_toNat_eq (hc'.trans hpass.symm))
    rw [if_neg hne, runToRest_of_atRest rfl]
    exact ⟨rfl, rfl⟩
  · rw [runToRest_of_atRest rfl] at h
    cases h

/-- Settles O58: both runs take the same steps up to `Done`, and part at the final check. -/
theorem wrongContainerLengthFails : Obligations.WrongContainerLengthFails := by
  intro s n c hrun hc hsuccess
  show (runToRest n (s.withClen c)).failedLength
  induction n generalizing s with
  | zero =>
    have hst : s.st = .success := hsuccess
    rw [hst] at hrun
    cases hrun
  | succ n ih =>
    rcases running_or_done_of_not_atRest hrun with hr | hdone
    · obtain ⟨t, ht⟩ := exists_step_of_not_atRest hrun
      have ht' : step (s.withClen c) = .next (t.withClen c) := by rw [step_withClen hr, ht]; rfl
      have hct : c ≠ t.clen := by rwa [step_clen ht]
      rw [runToRest_succ ht] at hsuccess
      rw [runToRest_succ ht']
      rcases step_running hr ht with (hst | hst) | hst | hst
      case inr.inr =>
        rw [runToRest_of_atRest (by rw [hst]; rfl), hst] at hsuccess
        cases hsuccess
      all_goals exact ih t (by rw [hst]; rfl) hct hsuccess
    · exact runToRest_withClen_of_done hdone hc hsuccess

end Sys2Proof.Machine
end

section
/-! Whole runs: every run ends within the bound of 42_decode_loop.md R170, and with the result of the reference algorithm of
R172. -/

namespace Sys2Proof.Machine

/-! ## The steps a run has left -/

/-- How many bytes are still to be appended, at least one while a run appends (42_decode_loop.md R168). -/
def State.bytesLeft (s : State) : Nat := max s.dlen.toNat 1 - s.olen.toNat

/-- A bound on the steps for `bytes` more bytes, of one item each, when the latched command byte still covers `bits` of
them: the items, the command bytes beyond it, the final check (42_decode_loop.md R170). -/
def stepsFor (bytes bits : Nat) : Nat := bytes + (bytes - bits + 7) / 8 + 1

/-- A bound on the steps a run has left. -/
def State.stepsLeft (s : State) : Nat :=
  match s.st with
  | .readCommandByte => stepsFor s.bytesLeft 0
  | .processBit => stepsFor s.bytesLeft (8 - s.k.toNat)
  | .done => 1
  | .idle => 0
  | .success => 0
  | .failed => 0

theorem State.stepsLeft_readCommandByte {s : State} (h : s.st = .readCommandByte) :
    s.stepsLeft = stepsFor s.bytesLeft 0 := by
  simp [State.stepsLeft, h]

theorem State.stepsLeft_processBit {s : State} (h : s.st = .processBit) :
    s.stepsLeft = stepsFor s.bytesLeft (8 - s.k.toNat) := by
  simp [State.stepsLeft, h]

theorem State.stepsLeft_done {s : State} (h : s.st = .done) : s.stepsLeft = 1 := by simp [State.stepsLeft, h]

theorem State.stepsLeft_atRest {s : State} (h : atRest s.st = true) : s.stepsLeft = 0 := by
  cases hst : s.st <;> simp_all [State.stepsLeft, atRest]

/-- A fetched command byte covers eight items (42_decode_loop.md R161). -/
theorem stepsFor_fetch {bytes : Nat} (h : 0 < bytes) : stepsFor bytes 8 < stepsFor bytes 0 := by
  unfold stepsFor; omega

/-- An item uses up one command bit and appends at least one byte. -/
theorem stepsFor_item {bytes bytes' bits : Nat} (h : bytes' < bytes) : stepsFor bytes' bits < stepsFor bytes (bits + 1) := by
  unfold stepsFor; omega

theorem one_lt_stepsFor {bytes : Nat} (h : 0 < bytes) (bits : Nat) : 1 < stepsFor bytes bits := by
  unfold stepsFor; omega

theorem State.bytesLeft_pos {s : State} (h : s.canAppend) : 0 < s.bytesLeft :=
  Nat.sub_pos_of_lt (State.canAppend_lt h)

theorem State.bytesLeft_lt {s t : State} (hc : s.canAppend) (hd : t.dlen = s.dlen) (hg : s.olen.toNat < t.olen.toNat) :
    t.bytesLeft < s.bytesLeft := by
  have hlt := State.canAppend_lt hc
  unfold State.bytesLeft
  rw [hd]
  omega

theorem step_dlen {s t : State} (h : step s = .next t) : t.dlen = s.dlen := by
  obtain ⟨_, hdlen, _⟩ := (sameConfig_kept s).step h s.sameConfig_refl
  exact hdlen

/-- An item step uses up a step of the bound, and leaves room for a byte where it goes on (42_decode_loop.md R163, R164). -/
theorem State.ItemOutcome.stepsLeft_lt {s t : State} (hc : s.canAppend) (hst : s.st = .processBit)
    (hd : t.dlen = s.dlen) (h : s.ItemOutcome t) : t.stepsLeft < s.stepsLeft ∧ (t.running → t.canAppend) := by
  rw [State.stepsLeft_processBit hst]
  have hpos := State.bytesLeft_pos hc
  cases h with
  | nextBit st more k room grown =>
    have hmore : s.k.toNat < 7 := more
    have hbits : 8 - s.k.toNat = 8 - t.k.toNat + 1 := by
      have hk : t.k.toNat = s.k.toNat + 1 := by rw [k, BitVec.toNat_add, show (1 : BitVec 3).toNat = 1 from rfl]; omega
      omega
    rw [State.stepsLeft_processBit st, hbits]
    exact ⟨stepsFor_item (State.bytesLeft_lt hc hd (grown hc)), fun _ => .inl room⟩
  | nextCommand st last room grown =>
    rw [State.stepsLeft_readCommandByte st, last]
    exact ⟨stepsFor_item (State.bytesLeft_lt hc hd (grown hc)), fun _ => .inl room⟩
  | lengthStop st _ =>
    rw [State.stepsLeft_done st]
    exact ⟨one_lt_stepsFor hpos _, by simp [State.running, st]⟩
  | failed st _ =>
    rw [State.stepsLeft_atRest (by rw [st]; rfl)]
    exact ⟨Nat.lt_of_succ_lt (one_lt_stepsFor hpos _), by simp [State.running, st]⟩

/-- Where a run stands that will end: started, with room for a byte while it appends (10_state.md R37 (b)). -/
structure State.Started (s : State) : Prop where
  notIdle : s.st ≠ .idle
  room : s.running → s.canAppend

theorem State.raise_started (f : FaultCode) (s : State) : (s.raise f).Started :=
  ⟨by simp, by simp [State.running]⟩

theorem State.finalCheck_ended (s : State) : s.finalCheck.st = .success ∨ s.finalCheck.st = .failed := by
  unfold State.finalCheck
  split
  · exact .inl rfl
  · exact .inr rfl

theorem atRest_of_ended {s : State} (h : s.st = .success ∨ s.st = .failed) : atRest s.st = true := by
  rcases h with h | h <;> rw [h] <;> rfl

/-- Every step uses up at least one of the steps left, whatever the stream holds (42_decode_loop.md R170). -/
theorem State.Started.step {s t : State} (hs : s.Started) (h : step s = .next t) :
    t.Started ∧ t.stepsLeft < s.stepsLeft := by
  rcases running_or_done_of_not_atRest (not_atRest_of_step h) with hr | hdone
  · have hc := hs.room hr
    have hidle : t.st ≠ .idle := by
      rcases step_running hr h with (ht | ht) | ht | ht <;> simp [ht]
    rcases hr with hst | hst
    · have hpos := State.bytesLeft_pos hc
      rw [State.stepsLeft_readCommandByte hst]
      by_cases hl : s.ipos < s.ilen
      · cases (step_readCommandByte hst hl).symm.trans h
        exact ⟨⟨hidle, fun _ => hc⟩, stepsFor_fetch hpos⟩
      · cases (step_of_noByte (.inl hst) (Nat.not_lt.mp hl)).symm.trans h
        exact ⟨s.raise_started _, Nat.lt_of_succ_lt (one_lt_stepsFor hpos _)⟩
    · obtain ⟨hlt, hroom⟩ := (step_processBit hst h).stepsLeft_lt hc hst (step_dlen h)
      exact ⟨⟨hidle, hroom⟩, hlt⟩
  · cases (step_done hdone).symm.trans h
    have hended := s.finalCheck_ended
    rw [State.stepsLeft_done hdone, State.stepsLeft_atRest (atRest_of_ended hended)]
    refine ⟨⟨?_, ?_⟩, Nat.one_pos⟩ <;> rcases hended with he | he <;> simp [State.running, he]

theorem State.Started.ended_of_atRest {s : State} (hs : s.Started) (hrest : atRest s.st = true) :
    s.st = .success ∨ s.st = .failed := by
  have hidle := hs.notIdle
  cases hst : s.st <;> simp_all [atRest]

/-- A run is at its end after the steps it has left. -/
theorem State.Started.runToRest_ended {n : Nat} {s : State} (hs : s.Started) (hn : s.stepsLeft ≤ n) :
    (runToRest n s).st = .success ∨ (runToRest n s).st = .failed := by
  induction n generalizing s with
  | zero =>
    cases hrest : atRest s.st with
    | true => exact hs.ended_of_atRest hrest
    | false =>
      obtain ⟨t, ht⟩ := exists_step_of_not_atRest hrest
      exact absurd (hs.step ht).2 (by omega)
  | succ n ih =>
    cases hrest : atRest s.st with
    | true =>
      rw [runToRest_of_atRest hrest]
      exact hs.ended_of_atRest hrest
    | false =>
      obtain ⟨t, ht⟩ := exists_step_of_not_atRest hrest
      obtain ⟨hst, hlt⟩ := hs.step ht
      rw [runToRest_succ ht]
      exact ih hst (by omega)

theorem State.start_started (s : State) : s.start.Started := ⟨by simp, fun _ => s.start_canAppend⟩

/-- The bound of 42_decode_loop.md R170 is the steps left at START. -/
theorem State.stepsLeft_start (s : State) : s.start.stepsLeft = stepBound s.dlen := by
  rw [State.stepsLeft_readCommandByte rfl]
  simp [stepsFor, State.bytesLeft, stepBound]

/-- Settles O56: each step uses up one of the steps left, which at START are the bound. -/
theorem runsEndWithinTheStepBound : Obligations.RunsEndWithinTheStepBound := fun s =>
  s.start_started.runToRest_ended s.stepsLeft_start.le

end Sys2Proof.Machine
end

section
/-! A run computes the reference algorithm of 42_decode_loop.md R172: the step of an item against a round of the loop over
lists, then whole runs. -/

namespace Sys2Proof.Machine

/-! ## What the loop over lists sees of a state -/

/-- The bytes of `IN` still to be read (20_memory.md R65). -/
def State.unread (s : State) : List Byte := (List.range (s.ilen - s.ipos)).map fun c => s.inp.read (s.ipos + c)

theorem State.unread_of_ge {s : State} (h : s.ilen ≤ s.ipos) : s.unread = [] := by
  simp [State.unread, Nat.sub_eq_zero_of_le h]

theorem State.unread_of_lt {s : State} (h : s.ipos < s.ilen) :
    s.unread = s.inp.read s.ipos :: (s.advance 1).unread := by
  have hlen : s.ilen - s.ipos = s.ilen - (s.ipos + 1) + 1 := by omega
  simp [State.unread, hlen, List.range_succ_eq_map, Function.comp_def, Nat.add_assoc, Nat.add_comm 1]

@[simp] theorem State.unread_length (s : State) : s.unread.length = s.ilen - s.ipos := by simp [State.unread]

@[simp] theorem State.unread_nextBit (s : State) : s.nextBit.unread = s.unread := by simp [State.unread]

/-- A started run has its whole stream before it (42_decode_loop.md R172). -/
theorem State.unread_start_supply (bytes : List Byte) (s : State) : (s.supply bytes).start.unread = bytes := by
  apply List.ext_getElem
  · simp
  · intro i _ hi
    simp [State.unread, Memory.read_ofBytes, hi]

/-- The command bits still to be used: none where a command byte is next (42_decode_loop.md R161, R164). -/
def State.bitsLeft (s : State) : List Bool := if s.st = .processBit then (commandBits s.cmd).drop s.k.toNat else []

theorem commandBits_drop (c : Byte) (k : BitVec 3) :
    (commandBits c).drop k.toNat = msb c k :: (commandBits c).drop (k.toNat + 1) := by
  obtain ⟨hlt, hbit⟩ := List.getElem?_eq_some_iff.mp (commandBits_getElem? c k)
  rw [List.drop_eq_getElem_cons hlt, hbit]

theorem State.bitsLeft_processBit {s : State} (h : s.st = .processBit) :
    s.bitsLeft = msb s.cmd s.k :: (commandBits s.cmd).drop (s.k.toNat + 1) := by
  rw [State.bitsLeft, if_pos h, commandBits_drop]

/-- Going on uses up one command bit; after the eighth a command byte is next (42_decode_loop.md R164). -/
theorem State.bitsLeft_nextBit {s : State} (h : s.st = .processBit) :
    s.nextBit.bitsLeft = (commandBits s.cmd).drop (s.k.toNat + 1) := by
  by_cases hk : s.k < 7
  · have hlt : s.k.toNat < 7 := hk
    have hsucc : (s.k + 1).toNat = s.k.toNat + 1 := by
      rw [BitVec.toNat_add, show (1 : BitVec 3).toNat = 1 from rfl]; omega
    rw [State.nextBit_of_lt hk, State.bitsLeft, if_pos h, hsucc]
  · rw [State.nextBit_of_last hk, eq_seven_of_not_lt hk]
    rfl

/-- A byte appended within a run is the last byte of the output (20_memory.md R69). -/
theorem State.outBytes_append {s : State} (hc : s.canAppend) (hw : s.out.wf = true) (b : Byte) :
    (s.append b).outBytes = s.outBytes ++ [b] := by
  simp only [State.outBytes, State.append_olen, State.append_out, State.canAppend_succ hc, List.range_succ,
    List.map_append, List.map_singleton, Memory.read_write_same hw]
  refine congrArg (· ++ [b]) (List.map_congr_left fun a ha => ?_)
  exact Memory.read_write_other _ (List.mem_range.mp ha).ne b

@[simp] theorem State.outBytes_nextBit (s : State) : s.nextBit.outBytes = s.outBytes := by simp [State.outBytes]

/-- The length stop, on the list of bytes (42_decode_loop.md R163). -/
theorem State.stop_iff {s : State} (hc : s.canAppend) :
    s.dlen ≤ s.olen + 1 ↔ s.dlen.toNat ≤ s.outBytes.length + 1 := by
  rw [State.outBytes_length, ← State.canAppend_succ hc]
  rfl

/-! ## A round of the loop -/

/-- The rest of a round of the loop, when its command has appended: to `Done` at the length stop, else on to the next
round. -/
def refItem (cft : FlagTable) (dlen n : Nat) (bits : List Bool) (inp : List Byte) (r : List Byte × Bool) :
    Except FaultCode (List Byte × List Byte) :=
  if r.2 then .ok (r.1, inp) else refLoop cft dlen n bits inp r.1

section
variable {cft : FlagTable} {dlen n : Nat} {bits : List Bool} {inp out : List Byte} {b : Byte}

theorem refLoop_noByte : refLoop cft dlen (n + 1) bits [] out = .error .ioError := by
  cases bits <;> rfl

theorem refLoop_command :
    refLoop cft dlen (n + 1) [] (b :: inp) out = refLoop cft dlen n (commandBits b) inp out := rfl

theorem refLoop_literal :
    refLoop cft dlen (n + 1) (true :: bits) (b :: inp) out = refItem cft dlen n bits inp (refEmit dlen out [b]) := by
  rw [refLoop, refItem]
  rcases refEmit dlen out [b] with ⟨out', _ | _⟩ <;> rfl

theorem refLoop_pair {i : PatternIndex} {p : Byte × Byte} (hf : find cft (hi b) = some i)
    (hp : pattern i (lo b) = some p) :
    refLoop cft dlen (n + 1) (false :: bits) (b :: inp) out =
      refItem cft dlen n bits inp (refEmit dlen out [p.1, p.2]) := by
  simp only [refLoop, hf, hp, refItem]
  rcases refEmit dlen out [p.1, p.2] with ⟨out', _ | _⟩ <;> rfl

theorem refLoop_nybbleRange {i : PatternIndex} (hf : find cft (hi b) = some i) (hp : pattern i (lo b) = none) :
    refLoop cft dlen (n + 1) (false :: bits) (b :: inp) out = .error .nybbleRange := by
  simp only [refLoop, hf, hp]

theorem refLoop_noOffset (hf : find cft (hi b) = none) :
    refLoop cft dlen (n + 1) (false :: bits) [b] out = .error .ioError := by
  simp only [refLoop, hf]

theorem refLoop_outOfRange {o : Byte} (hf : find cft (hi b) = none) (hd : out.length < copyDistance (lo b) o) :
    refLoop cft dlen (n + 1) (false :: bits) (b :: o :: inp) out = .error .backRefOutOfRange := by
  simp only [refLoop, hf, hd, if_true]

theorem refLoop_copy {o : Byte} (hf : find cft (hi b) = none) (hd : copyDistance (lo b) o ≤ out.length) :
    refLoop cft dlen (n + 1) (false :: bits) (b :: o :: inp) out =
      refItem cft dlen n bits inp
        (refCopy dlen (copyLength (hi b)) (out.length - copyDistance (lo b) o) out) := by
  simp only [refLoop, hf, if_neg (Nat.not_lt.mpr hd), refItem]
  rcases refCopy dlen (copyLength (hi b)) (out.length - copyDistance (lo b) o) out with ⟨out', _ | _⟩ <;> rfl

end

/-- In range, copying byte by byte from the list is appending the periodic bytes (41_backref_copy.md R148). -/
theorem refCopy_eq_refEmit (n : Nat) {s : State} (hc : s.canAppend) (hw : s.out.wf = true) {dist : Nat}
    (hpos : 0 < dist) (hd : dist ≤ s.olen.toNat) :
    refCopy s.dlen.toNat n (s.olen.toNat - dist) s.outBytes =
      refEmit s.dlen.toNat s.outBytes (s.periodicBytes n dist) := by
  induction n generalizing s with
  | zero => rfl
  | succ n ih =>
    have hl := State.canAppend_succ hc
    rw [State.periodicBytes_succ hc hw hpos hd, refCopy, refEmit, State.getD_outBytes (by omega),
      ← State.outBytes_append hc hw]
    split
    · rfl
    · rename_i hgo
      have hstop : ¬ s.dlen ≤ s.olen + 1 := (State.stop_iff hc).not.mpr hgo
      have hnext : s.olen.toNat - dist + 1 = (s.olen + 1).toNat - dist := by omega
      rw [hnext]
      exact ih (State.canAppend_append _ hstop) (Memory.wf_write _ _ hw) (by rw [State.append_olen, hl]; omega)

/-! ## A step against a round -/

/-- What the loop over lists makes of a run from a state on, before the final check; `n` bounds its rounds. -/
def State.refFrom (n : Nat) (s : State) : Except FaultCode (List Byte × List Byte) :=
  if s.st = .failed then .error s.err
  else if s.st = .done then .ok (s.outBytes, s.unread)
  else refLoop s.cft s.dlen.toNat n s.bitsLeft s.unread s.outBytes

theorem State.refFrom_raise (n : Nat) (f : FaultCode) (s : State) : (s.raise f).refFrom n = .error f := rfl

theorem State.refFrom_running {s : State} (h : s.running) (n : Nat) :
    s.refFrom n = refLoop s.cft s.dlen.toNat n s.bitsLeft s.unread s.outBytes := by
  rcases h with h | h <;> simp [State.refFrom, h]

/-- Appending a list under the length stop ends in the state the loop over lists goes on from (42_decode_loop.md R163,
R164). -/
theorem State.refFrom_afterAppends (n : Nat) {s : State} (hst : s.st = .processBit) (hc : s.canAppend)
    (hw : s.out.wf = true) {bs : List Byte} (hbs : bs = [] → s.olen < s.dlen) :
    (s.afterAppends bs).refFrom n =
      refItem s.cft s.dlen.toNat n ((commandBits s.cmd).drop (s.k.toNat + 1)) s.unread
        (refEmit s.dlen.toNat s.outBytes bs) := by
  induction bs generalizing s with
  | nil =>
    rw [State.afterAppends_nil (hbs rfl), State.refFrom_running (State.nextBit_running (.inr hst)),
      State.bitsLeft_nextBit hst]
    simp [refEmit, refItem]
  | cons b bs ih =>
    rw [refEmit, ← State.outBytes_append hc hw]
    by_cases hstop : s.dlen ≤ s.olen + 1
    · rw [State.afterAppends_stop hc bs hstop, if_pos ((State.stop_iff hc).mp hstop)]
      rfl
    · rw [State.afterAppends_continue hc bs hstop, if_neg ((State.stop_iff hc).not.mp hstop)]
      exact ih (s := s.append b) hst (State.canAppend_append b hstop) (Memory.wf_write _ _ hw)
        fun _ => BitVec.not_le.mp hstop

section
variable {s : State} (hst : s.st = .processBit) (hl : s.ipos < s.ilen)
include hst hl

/-- The step of a literal (30_encoding.md R95, 42_decode_loop.md R167). -/
theorem step_literal (hb : msb s.cmd s.k = true) :
    step s = .next ((s.advance 1).afterAppends [s.inp.read s.ipos]) := by
  obtain ⟨rest, hbytes⟩ := State.fetchBytes_cons hl
  have hslot : s.slot = some .literal := by simp [State.slot, selectSlot, hst, hb]
  rw [step_of_decode hslot (by rw [hbytes, decode_literal]), exec_lit_of_lt hl, ← State.emit_finish,
    State.emit_finish_eq_afterAppends]

/-- The step of a mode byte whose high nibble the table finds (30_encoding.md R95). -/
theorem step_nybble (hb : msb s.cmd s.k = false) {i : PatternIndex} (hf : find s.cft (hi (s.inp.read s.ipos)) = some i) :
    step s = exec (nybbleInstr i (hi (s.inp.read s.ipos)) (lo (s.inp.read s.ipos))) s := by
  obtain ⟨rest, hbytes⟩ := State.fetchBytes_cons hl
  have hslot : s.slot = some .mode := by simp [State.slot, selectSlot, hst, hb]
  exact step_of_decode hslot (by rw [hbytes, decode_mode_found hf])

/-- The step of a mode byte that the table does not find (30_encoding.md R95, R99). -/
theorem step_notFound (hb : msb s.cmd s.k = false) (hf : find s.cft (hi (s.inp.read s.ipos)) = none) :
    step s =
      if s.ipos + 1 < s.ilen then
        exec (.copy (hi (s.inp.read s.ipos)) (lo (s.inp.read s.ipos)) (s.inp.read (s.ipos + 1))) s
      else .next ((s.advance 1).raise .ioError) := by
  have hslot : s.slot = some .mode := by simp [State.slot, selectSlot, hst, hb]
  by_cases ho : s.ipos + 1 < s.ilen
  · rw [if_pos ho]
    exact step_of_decode hslot (by rw [State.fetchBytes_eq, if_pos ho, decode_mode_copy hf])
  · rw [if_neg ho]
    exact step_of_decode_error hslot (by rw [State.fetchBytes_eq, if_neg ho, if_pos hl, decode_mode_short hf])

end

/-- Where the loop over lists stands before an item: the bit at `K` and the byte at `IPOS` are next. -/
theorem State.refFrom_processBit {s : State} (hst : s.st = .processBit) (hl : s.ipos < s.ilen) (n : Nat) :
    s.refFrom n =
      refLoop s.cft s.dlen.toNat n (msb s.cmd s.k :: (commandBits s.cmd).drop (s.k.toNat + 1))
        (s.inp.read s.ipos :: (s.advance 1).unread) s.outBytes := by
  rw [State.refFrom_running (.inr hst), State.bitsLeft_processBit hst, State.unread_of_lt hl]

/-- An item step that appends its bytes is a round of the loop that appends them. -/
theorem State.refFrom_advance_afterAppends {s : State} (h : s.RunInv) (hst : s.st = .processBit) (m n : Nat)
    {bs : List Byte} (hbs : bs ≠ []) :
    ((s.advance m).afterAppends bs).refFrom n =
      refItem s.cft s.dlen.toNat n ((commandBits s.cmd).drop (s.k.toNat + 1)) (s.advance m).unread
        (refEmit s.dlen.toNat s.outBytes bs) :=
  State.refFrom_afterAppends n (s := s.advance m) hst (h.canAppend (.inr hst)) h.memory.outCanonical
    fun hnil => absurd hnil hbs

/-- The step of a `COPY` is a round of the loop (41_backref_copy.md R140). -/
theorem refFrom_exec_copy {s t : State} (h : s.RunInv) (hst : s.st = .processBit) (hb : msb s.cmd s.k = false)
    (hf : find s.cft (hi (s.inp.read s.ipos)) = none) (hl : s.ipos + 1 < s.ilen)
    (he : exec (.copy (hi (s.inp.read s.ipos)) (lo (s.inp.read s.ipos)) (s.inp.read (s.ipos + 1))) s = .next t)
    (n : Nat) : t.refFrom n = s.refFrom (n + 1) := by
  have hl1 : (s.advance 1).ipos < (s.advance 1).ilen := hl
  have hc := h.canAppend (.inr hst)
  rw [State.refFrom_processBit hst (by omega), hb, State.unread_of_lt hl1]
  by_cases hd : s.olen.toNat < copyDistance (lo (s.inp.read s.ipos)) (s.inp.read (s.ipos + 1))
  · cases (copyBeforeStartRaises _ _ _ s hl (by rwa [← copyDistance_eq])).symm.trans he
    exact (refLoop_outOfRange hf (by rwa [State.outBytes_length])).symm
  · have hd' := Nat.not_lt.mp hd
    cases (copyAppendsPeriodicBytes _ _ _ s hl hc h.memory.outCanonical (by rwa [← copyDistance_eq])).symm.trans he
    rw [← copyDistance_eq, ← copyLength_eq, State.refFrom_advance_afterAppends h hst]
    · refine .trans ?_ (refLoop_copy hf (by rwa [State.outBytes_length])).symm
      rw [State.outBytes_length]
      exact congrArg _ (refCopy_eq_refEmit _ hc h.memory.outCanonical (copyDistance_pos _ _) hd').symm
    · exact List.ne_nil_of_length_pos (by simp [State.periodicBytes, copyLength_pos])

/-- The step of a nybble-pattern command is a round of the loop (40_dispatch_nybble_pattern.md R136). -/
theorem refFrom_exec_nybble {s t : State} (h : s.RunInv) (hst : s.st = .processBit) (hb : msb s.cmd s.k = false)
    {i : PatternIndex} (hf : find s.cft (hi (s.inp.read s.ipos)) = some i) (hl : s.ipos < s.ilen)
    (he : exec (nybbleInstr i (hi (s.inp.read s.ipos)) (lo (s.inp.read s.ipos))) s = .next t) (n : Nat) :
    t.refFrom n = s.refFrom (n + 1) := by
  rw [State.refFrom_processBit hst hl, hb]
  cases hp : pattern i (lo (s.inp.read s.ipos)) with
  | some p =>
    cases (exec_nybbleInstr_pair hl (h.canAppend (.inr hst)) _ hp).symm.trans he
    rw [State.refFrom_advance_afterAppends h hst 1 n (by simp), refLoop_pair hf hp]
  | none =>
    cases (exec_nybbleInstr_fault hl _ hp).symm.trans he
    rw [refLoop_nybbleRange hf hp, State.refFrom_raise]

/-- The step of an item is a round of the loop, selected alike by command bit and table (30_encoding.md R95). -/
theorem refFrom_step_item {s t : State} (h : s.RunInv) (hst : s.st = .processBit) (hl : s.ipos < s.ilen)
    (hstep : step s = .next t) (n : Nat) : t.refFrom n = s.refFrom (n + 1) := by
  cases hb : msb s.cmd s.k with
  | true =>
    cases (step_literal hst hl hb).symm.trans hstep
    rw [State.refFrom_advance_afterAppends h hst 1 n (by simp), State.refFrom_processBit hst hl, hb, refLoop_literal]
  | false =>
    cases hf : find s.cft (hi (s.inp.read s.ipos)) with
    | some i => exact refFrom_exec_nybble h hst hb hf hl ((step_nybble hst hl hb hf).symm.trans hstep) n
    | none =>
      have he := (step_notFound hst hl hb hf).symm.trans hstep
      split_ifs at he with ho
      · exact refFrom_exec_copy h hst hb hf ho he n
      · cases he
        have hlast : (s.advance 1).unread = [] := State.unread_of_ge (Nat.not_lt.mp ho)
        rw [State.refFrom_processBit hst hl, hb, hlast, refLoop_noOffset hf, State.refFrom_raise]

/-- A step of a command is a round of the loop over lists (42_decode_loop.md R160, R172). -/
theorem refFrom_step {s t : State} (h : s.RunInv) (hr : s.running) (hstep : step s = .next t) (n : Nat) :
    t.refFrom n = s.refFrom (n + 1) := by
  by_cases hl : s.ipos < s.ilen
  · rcases hr with hst | hst
    · cases (step_readCommandByte hst hl).symm.trans hstep
      have hbits : s.bitsLeft = [] := if_neg (by simp [hst])
      rw [State.refFrom_running (.inl hst), State.unread_of_lt hl, hbits, refLoop_command]
      rfl
    · exact refFrom_step_item h hst hl hstep n
  · cases (step_of_noByte hr (Nat.not_lt.mp hl)).symm.trans hstep
    rw [State.refFrom_running hr, State.unread_of_ge (Nat.not_lt.mp hl), refLoop_noByte, State.refFrom_raise]

/-! ## Whole runs -/

/-- The final check of the reference algorithm, for a stream of `len` bytes (42_decode_loop.md R166, R172). -/
def refVerdict (clen hlen len : Nat) : Except FaultCode (List Byte × List Byte) → Except FaultCode (List Byte)
  | .error e => .error e
  | .ok (out, rest) => if clen = (len - rest.length) + hlen then .ok out else .error .invalidDecompressedLength

theorem refRun_eq_refVerdict (cft : FlagTable) (dlen clen hlen : Nat) (inp : List Byte) :
    refRun cft dlen clen hlen inp = refVerdict clen hlen inp.length (refLoop cft dlen (inp.length + 1) [] inp []) := by
  rw [refRun]
  cases refLoop cft dlen (inp.length + 1) [] inp [] <;> rfl

/-- The result the reference algorithm gives a run from a state on; `n` bounds the rounds of its loop. -/
def State.verdict (n : Nat) (s : State) : Except FaultCode (List Byte) :=
  if s.st = .success then .ok s.outBytes else refVerdict s.clen.toNat s.hlen.toNat s.ilen (s.refFrom n)

/-- A run that has ended has the result it was heading for. -/
theorem State.verdict_of_ended {s : State} (h : s.st = .success ∨ s.st = .failed) (n : Nat) :
    s.verdict n = runResult s := by
  rcases h with h | h <;> simp [State.verdict, runResult, State.refFrom, refVerdict, h]

/-- `IPOS` is the number of bytes the loop over lists has taken, so both make the same final check (42_decode_loop.md
R166). -/
theorem State.verdict_finalCheck {s : State} (h : s.RunInv) (hst : s.st = .done) (n : Nat) :
    s.finalCheck.verdict n = s.verdict n := by
  have hpos : s.ilen - (s.ilen - s.ipos) = s.ipos := Nat.sub_sub_self h.position
  have hv : s.verdict n =
      if s.clen.toNat = s.ipos + s.hlen.toNat then .ok s.outBytes else .error .invalidDecompressedLength := by
    simp [State.verdict, State.refFrom, refVerdict, hst, hpos]
  rw [hv, State.finalCheck_eq]
  split <;> rfl

theorem State.verdict_step {s t : State} (h : s.RunInv) (hr : s.running) (hstep : step s = .next t) (n : Nat) :
    t.verdict n = s.verdict (n + 1) := by
  obtain ⟨_, _, hclen, hhlen, _, _, hilen⟩ := (sameConfig_kept s).step hstep s.sameConfig_refl
  have hs : s.st ≠ .success := by rcases hr with hst | hst <;> simp [hst]
  have ht : t.st ≠ .success := by rcases step_running hr hstep with (hst | hst) | hst | hst <;> simp [hst]
  rw [State.verdict, State.verdict, if_neg hs, if_neg ht, refFrom_step h hr hstep, hclen, hhlen, hilen]

/-- A step of a command that goes on has read at least one byte (10_state.md R26). -/
theorem ipos_lt_of_step {s t : State} (hstep : step s = .next t) (ht : t.running) (hs : s.running) : s.ipos < t.ipos := by
  have hl : s.ipos < s.ilen := by
    by_contra hge
    cases (step_of_noByte hs (Nat.not_lt.mp hge)).symm.trans hstep
    exact absurd rfl ht.ne_failed
  rcases step_inversion hstep with ⟨_, _, rfl⟩ | ⟨_, i, _, hexec⟩ | ⟨_, rfl⟩ | ⟨_, _, rfl⟩ | ⟨hdone, _⟩
  · exact Nat.lt_succ_self _
  · have hmove := positionMovesByReads i s t hexec
    have hpos := length_pos i
    omega
  · exact absurd rfl ht.ne_failed
  · exact Nat.lt_succ_self _
  · rcases hs with hst | hst <;> simp [hst] at hdone

/-- The reference algorithm gives the run from here on the result `r`, with rounds enough for the bytes still to be
read. -/
structure State.HeadsFor (r : Except FaultCode (List Byte)) (s : State) : Prop where
  inv : s.RunInv
  result : ∃ n, (s.running → s.unread.length < n) ∧ s.verdict n = r

theorem State.HeadsFor.step {r : Except FaultCode (List Byte)} {s t : State} (h : s.HeadsFor r)
    (hstep : step s = .next t) : t.HeadsFor r := by
  refine ⟨stepKeepsRunInvariant s t h.inv hstep, ?_⟩
  obtain ⟨n, hfuel, hn⟩ := h.result
  rcases running_or_done_of_not_atRest (not_atRest_of_step hstep) with hr | hdone
  · obtain ⟨n, rfl⟩ := Nat.exists_eq_add_of_lt (hfuel hr)
    refine ⟨_, fun ht => ?_, (State.verdict_step h.inv hr hstep _).trans hn⟩
    have hpos := ipos_lt_of_step hstep ht hr
    obtain ⟨_, _, _, _, _, _, hilen⟩ := (sameConfig_kept s).step hstep s.sameConfig_refl
    have hend := (stepKeepsRunInvariant s t h.inv hstep).position
    rw [State.unread_length, State.unread_length]
    omega
  · cases (step_done hdone).symm.trans hstep
    refine ⟨n, fun hr => ?_, (State.verdict_finalCheck h.inv hdone n).trans hn⟩
    rcases s.finalCheck_ended with he | he <;> simp [State.running, he] at hr

/-- What every step keeps, a run keeps. -/
theorem runToRest_induction {P : State → Prop} (hP : ∀ s t, P s → step s = .next t → P t) (n : Nat) {s : State}
    (hs : P s) : P (runToRest n s) := by
  induction n generalizing s with
  | zero => exact hs
  | succ n ih =>
    cases hrest : atRest s.st with
    | true => rwa [runToRest_of_atRest hrest]
    | false =>
      obtain ⟨t, ht⟩ := exists_step_of_not_atRest hrest
      rw [runToRest_succ ht]
      exact ih (hP s t hs ht)

/-- A run on a supplied stream starts within the run invariant, whatever the state before (70_reset_and_hazards.md R253). -/
theorem State.start_supply_runInv (bytes : List Byte) (s : State) : (s.supply bytes).start.RunInv := by
  have hmem : (s.supply bytes).start.MemoryInv :=
    ⟨rfl, rfl, Memory.wf_ofBytes 0 bytes, by simpa using Memory.below_ofBytes 0 bytes⟩
  have hagain : (s.supply bytes).start.start.RunInv := State.start_runInv hmem
  exact hagain

theorem State.start_supply_headsFor (bytes : List Byte) (s : State) :
    (s.supply bytes).start.HeadsFor (refRun s.cft s.dlen.toNat s.clen.toNat s.hlen.toNat bytes) := by
  refine ⟨s.start_supply_runInv bytes, bytes.length + 1, fun _ => by simp, ?_⟩
  rw [refRun_eq_refVerdict, State.verdict, if_neg (by simp), State.refFrom_running (.inl rfl),
    State.unread_start_supply]
  rfl

/-- Settles O57: the result the reference algorithm gives is kept by every step, and the run ends within its bound. -/
theorem runComputesReferenceAlgorithm : Obligations.RunComputesReferenceAlgorithm := by
  intro s bytes
  have hrun := runToRest_induction (fun _ _ h => State.HeadsFor.step h) (stepBound s.dlen) (s.start_supply_headsFor bytes)
  obtain ⟨n, _, hresult⟩ := hrun.result
  exact (State.verdict_of_ended (runsEndWithinTheStepBound (s.supply bytes)) n).symm.trans hresult

end Sys2Proof.Machine
end

section
/-! The host's operations against the machine invariant (43_host_frontend.md R190), then the container front-end: how it
refuses a container (R195, R198), what it loads (R193 to R199), and the round trip of the naive encoder's container (R201,
R206). -/

namespace Sys2Proof.Machine

/-! ## The marks of written registers -/

/-- A configuration is complete when each of the twelve marks is set (70_reset_and_hazards.md R254). -/
theorem Written.all_iff (w : Written) :
    w.all = true ↔ (∀ i : PatternIndex, w.cft[i] = true) ∧ w.dlen = true ∧ w.clen = true ∧ w.hlen = true := by
  simp [Written.all, Fin.forall_iff, and_assoc]

/-- A write that clears no mark keeps a configuration complete. -/
theorem Written.all_mono {w v : Written} (hcft : ∀ i : PatternIndex, w.cft[i] = true → v.cft[i] = true)
    (hdlen : w.dlen = true → v.dlen = true) (hclen : w.clen = true → v.clen = true)
    (hhlen : w.hlen = true → v.hlen = true) (h : w.all = true) : v.all = true := by
  rw [Written.all_iff] at h ⊢
  obtain ⟨h₁, h₂, h₃, h₄⟩ := h
  exact ⟨fun i => hcft i (h₁ i), hdlen h₂, hclen h₃, hhlen h₄⟩

/-- Marking a table entry clears no mark of another. -/
theorem getElem_set_true {v : Vector Bool 9} {j : PatternIndex} (h : v[j] = true) (i : PatternIndex) :
    (v.set i true)[j] = true := by
  have hj : v[(j : Nat)] = true := h
  simp [Vector.getElem_set, hj]

/-! ## The machine invariant -/

/-- A supplied stream is held canonically below its length (20_memory.md R65). -/
theorem State.MemoryInv.supply {s : State} (h : s.MemoryInv) (bytes : List Byte) : (s.supply bytes).MemoryInv where
  outCanonical := h.outCanonical
  outExtent := h.outExtent
  inCanonical := Memory.wf_ofBytes 0 bytes
  inExtent := by simpa using Memory.below_ofBytes 0 bytes

/-- An operation at rest that leaves the engine there, clears no mark and keeps the memories canonical keeps the machine
invariant. -/
theorem State.MachineInv.ofRest {s t : State} (h : s.MachineInv) (hr : atRest s.st = true) (hst : t.st = s.st)
    (herr : t.err = s.err) (hw : s.written.all = true → t.written.all = true) (hm : t.MemoryInv) : t.MachineInv where
  run := fun ht => by rw [hst, hr] at ht; cases ht
  configured := fun ht => hw (h.configured (hst ▸ ht))
  memory := hm
  status := ⟨by rw [hst, herr]; exact h.status.noError, by rw [hst, herr]; exact h.status.error⟩

/-- START with every register written keeps the machine invariant (70_reset_and_hazards.md R253, R254). -/
theorem State.MachineInv.start {s : State} (h : s.MachineInv) (hw : s.written.all = true) : s.start.MachineInv :=
  have hrun := State.start_runInv h.memory
  ⟨fun _ => hrun, fun _ => hw, hrun.memory, hrun.status⟩

/-- Hardware reset leaves the machine invariant: it empties the output and keeps the stream (70_reset_and_hazards.md
R250). -/
theorem State.MachineInv.hardwareReset {s : State} (h : s.MachineInv) : (hardwareReset s).MachineInv where
  run := fun ht => by cases ht
  configured := fun ht => absurd rfl ht
  memory := ⟨rfl, rfl, h.memory.inCanonical, h.memory.inExtent⟩
  status := ⟨fun _ => rfl, fun ht => by cases ht⟩

/-- Settles O42: by the inversion of a host operation; all but reset and START leave the engine at rest. -/
theorem hostKeepsMachineInvariant : Obligations.HostKeepsMachineInvariant := by
  intro op s t h hstep
  have hmem := h.memory
  rcases hostStep_cases hstep with
    rfl | ⟨hr, rfl | ⟨hw, rfl⟩ | ⟨v, rfl⟩ | ⟨v, rfl⟩ | ⟨v, rfl⟩ | ⟨i, v, rfl⟩ | ⟨bytes, rfl⟩⟩
  · exact h.hardwareReset
  · exact h
  · exact h.start hw
  · exact h.ofRest hr rfl rfl (Written.all_mono (fun _ => id) (fun _ => rfl) id id) (hmem.congr rfl rfl rfl rfl)
  · exact h.ofRest hr rfl rfl (Written.all_mono (fun _ => id) id (fun _ => rfl) id) (hmem.congr rfl rfl rfl rfl)
  · exact h.ofRest hr rfl rfl (Written.all_mono (fun _ => id) id id fun _ => rfl) (hmem.congr rfl rfl rfl rfl)
  · exact h.ofRest hr rfl rfl (Written.all_mono (fun _ hj => getElem_set_true hj i) id id id)
      (hmem.congr rfl rfl rfl rfl)
  · exact h.ofRest hr rfl rfl id (hmem.supply bytes)

/-! ## The magic -/

/-- The two tags and the header lengths they select (43_host_frontend.md R195). -/
theorem headerLength_eq_some {magic : List Byte} {hl : Nat}
    (h : (magic = magicA ∧ hl = 20) ∨ (magic = magicB ∧ hl = 18)) : headerLength magic = some hl := by
  rcases h with ⟨rfl, rfl⟩ | ⟨rfl, rfl⟩ <;> rfl

/-- No other magic selects a header length (43_host_frontend.md R195). -/
theorem headerLength_eq_none {magic : List Byte} (hA : magic ≠ magicA) (hB : magic ≠ magicB) :
    headerLength magic = none := by
  rw [headerLength, if_neg hA, if_neg hB]

theorem headerLength_cases {magic : List Byte} {hl : Nat} (h : headerLength magic = some hl) :
    magic.length = 5 ∧ (hl = 20 ∨ hl = 18) := by
  unfold headerLength at h
  split_ifs at h with hA hB
  · cases h; exact ⟨hA ▸ rfl, .inl rfl⟩
  · cases h; exact ⟨hB ▸ rfl, .inr rfl⟩

/-- With fewer than 5 bytes there is no magic to read (43_host_frontend.md R198). -/
theorem parseMagic_short {F : List Byte} (h : F.length < 5) : parseMagic F = .error (.code .ioError) := if_pos h

theorem parseMagic_unknown {F : List Byte} (h : 5 ≤ F.length) (hm : headerLength (F.take 5) = none) :
    parseMagic F = .error (.invalidHeaderMagic (F.take 5)) := by
  rw [parseMagic, if_neg (by omega), hm]

theorem parseMagic_known {F : List Byte} {hl : Nat} (hm : headerLength (F.take 5) = some hl) :
    parseMagic F = .ok hl := by
  obtain ⟨hlen, _⟩ := headerLength_cases hm
  rw [List.length_take] at hlen
  rw [parseMagic, if_neg (by omega), hm]

/-- A container with a tag and all of its header is read (43_host_frontend.md R193, R194). -/
theorem parseHeader_known {F : List Byte} {hl : Nat} (hm : headerLength (F.take 5) = some hl) (h : hl ≤ F.length) :
    parseHeader F = .ok (readHeader F hl) := by
  rw [parseHeader, parseMagic_known hm]
  exact if_neg (Nat.not_lt.mpr h)

/-! ## Containers that are refused -/

/-- Where the magic itself is refused, nothing has been written (43_host_frontend.md R193; log 24). -/
theorem decompress_of_parseMagic_error {F : List Byte} {e : FrontEndFault} (h : parseMagic F = .error e) (s : State) :
    decompress F s = .next (s, .error e) := by
  simp only [decompress, decompressWith, parseHeader, magicOps, h]
  exact afterOps_next rfl _

/-- Where a known magic stands before too few bytes, `HLEN` has been written (43_host_frontend.md R193, R198). -/
theorem decompress_short_header {F : List Byte} {hl : Nat} {s : State} (hr : atRest s.st = true)
    (hm : headerLength (F.take 5) = some hl) (h : F.length < hl) :
    decompress F s = .next (s.setHlen hl, .error (.code .ioError)) := by
  have hops : hostSteps [.write .hlen hl] s = .next (s.setHlen hl) := hostSteps_cons (hostStep_setHlen hr hl) []
  simp only [decompress, decompressWith, parseHeader, magicOps, parseMagic_known hm, if_pos h]
  exact afterOps_next hops _

/-- Settles O52: the magic selects no header length. -/
theorem unknownMagicIsRefused : Obligations.UnknownMagicIsRefused := fun _ s h hA hB =>
  decompress_of_parseMagic_error (parseMagic_unknown h (headerLength_eq_none hA hB)) s

/-- Settles O53: no magic, or a known magic and too few bytes for its header. -/
theorem shortContainersFailWithIOError : Obligations.ShortContainersFailWithIOError := fun _ s =>
  ⟨fun h => decompress_of_parseMagic_error (parseMagic_short h) s,
    fun hr hm h => decompress_short_header hr (headerLength_eq_some (.inl ⟨hm, rfl⟩)) h,
    fun hr hm h => decompress_short_header hr (headerLength_eq_some (.inr ⟨hm, rfl⟩)) h⟩

/-! ## Loading a header -/

/-- `compressed_length`, little-endian at offset 5, fits its register (43_host_frontend.md R194, R196). -/
theorem readHeader_clen_toNat {F : List Byte} (h : 7 ≤ F.length) (hl : Nat) :
    (readHeader F hl).clen.toNat = (F.getD 5 0).toNat + 256 * (F.getD 6 0).toNat := by
  have h0 := (F.getD 5 0).isLt
  have h1 := (F.getD 6 0).isLt
  rw [readHeader_clen, field_two h, BitVec.toNat_ofNat]
  simp only [leValue, Nat.reduceAdd]
  omega

/-- `decompressed_length` of Variant-A, four bytes at offset 16 (43_host_frontend.md R194, R196). -/
theorem readHeader_dlen_toNat_A {F : List Byte} (h : 20 ≤ F.length) :
    (readHeader F 20).dlen.toNat = (F.getD 16 0).toNat + 256 * (F.getD 17 0).toNat +
      (65536 * (F.getD 18 0).toNat + 16777216 * (F.getD 19 0).toNat) := by
  have h0 := (F.getD 16 0).isLt
  have h1 := (F.getD 17 0).isLt
  have h2 := (F.getD 18 0).isLt
  have h3 := (F.getD 19 0).isLt
  rw [readHeader_dlen, show dlenSize 20 = 4 from rfl, field_four h, BitVec.toNat_ofNat]
  simp only [leValue, Nat.reduceAdd]
  omega

/-- `decompressed_length` of Variant-B, two bytes at offset 16 (43_host_frontend.md R194, R196). -/
theorem readHeader_dlen_toNat_B {F : List Byte} (h : 18 ≤ F.length) :
    (readHeader F 18).dlen.toNat = (F.getD 16 0).toNat + 256 * (F.getD 17 0).toNat := by
  have h0 := (F.getD 16 0).isLt
  have h1 := (F.getD 17 0).isLt
  rw [readHeader_dlen, show dlenSize 18 = 2 from rfl, field_two h, BitVec.toNat_ofNat]
  simp only [leValue, Nat.reduceAdd]
  omega

/-- Both header lengths fit `HLEN` (43_host_frontend.md R194). -/
theorem readHeader_hlen_toNat {hl : Nat} (h : hl = 20 ∨ hl = 18) (F : List Byte) :
    (readHeader F hl).hlen.toNat = hl := by
  rcases h with rfl | rfl <;> rfl

/-- Neither window reaches past the container (43_host_frontend.md R199). -/
theorem windowLength_le (w : InWindow) (n clen hlen : Nat) : windowLength w n clen hlen ≤ n - hlen := by
  cases w <;> simp only [windowLength] <;> omega

theorem payload_length (w : InWindow) (F : List Byte) (h : Header) :
    (payload w F h).length = windowLength w F.length h.clen.toNat h.hlen.toNat := by
  rw [payload, field_length]
  exact Nat.min_eq_left (windowLength_le ..)

/-- The payload's bytes are the container's from the end of the header on (43_host_frontend.md R193). -/
theorem getD_payload {w : InWindow} {F : List Byte} {h : Header} {a : Nat} (ha : a < (payload w F h).length) :
    (payload w F h).getD a 0 = F.getD (h.hlen.toNat + a) 0 :=
  getD_field (payload_length w F h ▸ ha)

@[simp] theorem State.loaded_ilen (h : Header) (bytes : List Byte) (s : State) :
    (s.loaded h bytes).ilen = bytes.length := rfl

/-- The loaded stream reads as the bytes supplied (20_memory.md R65). -/
theorem State.read_loaded_inp (h : Header) (bytes : List Byte) (s : State) (a : Nat) :
    (s.loaded h bytes).inp.read a = bytes.getD a 0 :=
  (Memory.read_ofBytes 0 a bytes).trans (if_pos a.zero_le)

/-- Settles O54: the header as read field by field, loaded by the front-end's operations. -/
theorem frontEndLoadsHeader : Obligations.FrontEndLoadsHeader := by
  intro w F s hl hr htag hlen
  have hm : headerLength (F.take 5) = some hl := headerLength_eq_some htag
  obtain ⟨_, hcases⟩ := headerLength_cases hm
  have hhlen := readHeader_hlen_toNat hcases F
  refine ⟨readHeader F hl, s.loaded (readHeader F hl) (payload w F (readHeader F hl)), parseHeader_known hm hlen,
    hostSteps_loadOps hr _ _, rfl, rfl, rfl, hhlen, readHeader_clen_toNat (by omega) hl, readHeader_cft F hl,
    ?_, ?_, fun a ha => ?_⟩
  · rcases hcases with rfl | rfl
    · exact readHeader_dlen_toNat_A hlen
    · exact readHeader_dlen_toNat_B hlen
  · rw [State.loaded_ilen, payload_length, hhlen]
    cases w <;> rfl
  · rw [State.read_loaded_inp, getD_payload ha, hhlen]

/-! ## The naive container -/

theorem leBytes_length (n v : Nat) : (leBytes n v).length = n := by
  induction n generalizing v with
  | zero => rfl
  | succ n ih => rw [leBytes, List.length_cons, ih]

/-- The little-endian bytes of a value have that value, as far as they reach (20_memory.md R61). -/
theorem leValue_leBytes (n v : Nat) : leValue (leBytes n v) = v % 256 ^ n := by
  induction n generalizing v with
  | zero => rw [pow_zero, Nat.mod_one]; rfl
  | succ n ih => rw [leBytes, leValue, ih, BitVec.toNat_ofNat, pow_succ' 256 n, Nat.mod_mul]

/-- A field of the container is what stands between the bytes before it and the bytes after it. -/
theorem field_append {A B C : List Byte} {a n : Nat} (ha : A.length = a) (hn : B.length = n) :
    field (A ++ (B ++ C)) a n = B := by
  subst ha hn
  simp [field]

theorem naiveHeader_length (m p : Nat) : (naiveHeader m p).length = 20 := by
  simp [naiveHeader, leBytes_length, magicA]

/-- What the front-end reads of a naive header, whatever follows it (43_host_frontend.md R194, R206). -/
theorem readHeader_naiveHeader {m p : Nat} (hm : m < 2 ^ 32) (hp : 20 + p < 2 ^ 16) (rest : List Byte) :
    (readHeader (naiveHeader m p ++ rest) 20).clen.toNat = 20 + p ∧
      (readHeader (naiveHeader m p ++ rest) 20).dlen.toNat = m := by
  have hclen : field (naiveHeader m p ++ rest) 5 2 = leBytes 2 (20 + p) := by
    simp only [naiveHeader, List.append_assoc]
    exact field_append rfl (leBytes_length ..)
  have hdlen : field (naiveHeader m p ++ rest) 16 4 = leBytes 4 m := by
    rw [naiveHeader, List.append_assoc]
    exact field_append (by simp [leBytes_length, magicA]) (leBytes_length ..)
  rw [readHeader_clen, readHeader_dlen, show dlenSize 20 = 4 from rfl, hclen, hdlen, leValue_leBytes, leValue_leBytes,
    BitVec.toNat_ofNat, BitVec.toNat_ofNat]
  omega

/-- The naive encoder's payload has a command byte before every eighth literal (43_host_frontend.md R206). -/
theorem naiveGroups_length (left : Nat) (bytes : List Byte) :
    (naiveGroups left bytes).length = bytes.length + (bytes.length - left + 7) / 8 := by
  induction left, bytes using naiveGroups.induct with
  | case1 => simp [naiveGroups]
  | case2 b bs ih => simp only [naiveGroups, List.length_cons, ih]; omega
  | case3 left b bs ih => simp only [naiveGroups, List.length_cons, ih]; omega

/-- A naive container is its header, its payload, and padding. -/
theorem compressNaive_eq (bytes : List Byte) :
    ∃ pad, compressNaive bytes =
      naiveHeader bytes.length (naiveGroups 0 bytes).length ++ (naiveGroups 0 bytes ++ pad) :=
  ⟨_, List.append_assoc ..⟩

/-- Either window holds the whole payload that the container length counts, and maybe bytes after it
(43_host_frontend.md R199). -/
theorem payload_append {H P pad : List Byte} {h : Header} (w : InWindow) (hh : h.hlen.toNat = H.length)
    (hc : h.clen.toNat = H.length + P.length) : ∃ rest, payload w (H ++ (P ++ pad)) h = P ++ rest := by
  have hw : P.length ≤ windowLength w (H ++ (P ++ pad)).length h.clen.toNat h.hlen.toNat := by
    cases w <;> simp only [windowLength, List.length_append] <;> omega
  rw [payload, field, hh, List.drop_left, List.take_append, List.take_of_length_le (hh ▸ hw)]
  exact ⟨_, rfl⟩

/-- What the front-end takes from a naive container: the lengths the encoder wrote, and its payload (43_host_frontend.md
R193, R206). -/
theorem parseHeader_compressNaive (w : InWindow) {bytes : List Byte}
    (hbound : 20 + bytes.length + (bytes.length + 7) / 8 ≤ 65535) :
    ∃ (h : Header) (rest : List Byte), parseHeader (compressNaive bytes) = .ok h ∧ h.hlen.toNat = 20 ∧
      h.clen.toNat = 20 + (naiveGroups 0 bytes).length ∧ h.dlen.toNat = bytes.length ∧
      payload w (compressNaive bytes) h = naiveGroups 0 bytes ++ rest := by
  have hP := naiveGroups_length 0 bytes
  have hH := naiveHeader_length bytes.length (naiveGroups 0 bytes).length
  obtain ⟨pad, hF⟩ := compressNaive_eq bytes
  obtain ⟨hclen, hdlen⟩ := readHeader_naiveHeader (m := bytes.length) (p := (naiveGroups 0 bytes).length)
    (by omega) (by omega) (naiveGroups 0 bytes ++ pad)
  have hparse : parseHeader (compressNaive bytes) = .ok (readHeader (compressNaive bytes) 20) := by
    rw [hF]
    exact parseHeader_known rfl (by rw [List.length_append, hH]; omega)
  rw [← hF] at hclen hdlen
  obtain ⟨rest, hrest⟩ := payload_append (P := naiveGroups 0 bytes) (pad := pad) w
    (hH ▸ readHeader_hlen_toNat (.inl rfl) (compressNaive bytes)) (hH.symm ▸ hclen)
  rw [← hF] at hrest
  exact ⟨_, rest, hparse, rfl, hclen, hdlen, hrest⟩

/-! ## The reference algorithm on literals -/

/-- A round of the loop that takes a literal, with the length stop (42_decode_loop.md R163, R167). -/
theorem refLoop_literal_eq (cft : FlagTable) (dlen n : Nat) (bits : List Bool) (b : Byte) (inp out : List Byte) :
    refLoop cft dlen (n + 1) (true :: bits) (b :: inp) out =
      if dlen ≤ out.length + 1 then .ok (out ++ [b], inp) else refLoop cft dlen n bits inp (out ++ [b]) := by
  rw [refLoop_literal, refEmit, refItem]
  split <;> rfl

theorem commandBits_ones : commandBits 0xFF = List.replicate 8 true := by decide

/-- A literal of a group, given what the loop makes of the literals after it. -/
theorem refLoop_group_literal {cft : FlagTable} {dlen n left : Nat} {b : Byte} {bs out rest : List Byte}
    (hd : dlen = out.length + (bs.length + 1))
    (hbs : bs ≠ [] → dlen = (out ++ [b]).length + bs.length →
      refLoop cft dlen n (List.replicate left true) (naiveGroups left bs ++ rest) (out ++ [b]) =
        .ok (out ++ [b] ++ bs, rest)) :
    refLoop cft dlen (n + 1) (List.replicate (left + 1) true) (b :: (naiveGroups left bs ++ rest)) out =
      .ok (out ++ b :: bs, rest) := by
  have hlen : dlen = (out ++ [b]).length + bs.length := by
    rw [hd, List.length_append, List.length_singleton]
    omega
  rw [List.replicate_succ, refLoop_literal_eq]
  cases bs with
  | nil => rw [if_pos (by simp [hd])]; simp [naiveGroups]
  | cons c cs => rw [if_neg (by simp [hd]), hbs (by simp) hlen]; simp

/-- The loop over lists takes groups of literals back to the bytes they were made of, and leaves what follows them
unread. -/
theorem refLoop_naiveGroups (cft : FlagTable) {dlen n left : Nat} {bytes out : List Byte} (rest : List Byte)
    (hne : bytes ≠ []) (hd : dlen = out.length + bytes.length) (hn : (naiveGroups left bytes).length ≤ n) :
    refLoop cft dlen n (List.replicate left true) (naiveGroups left bytes ++ rest) out = .ok (out ++ bytes, rest) := by
  induction left, bytes using naiveGroups.induct generalizing n out with
  | case1 => exact absurd rfl hne
  | case2 b bs ih =>
    simp only [naiveGroups, List.length_cons] at hn
    obtain ⟨n, rfl⟩ := Nat.exists_eq_add_of_le' (show 2 ≤ n by omega)
    show refLoop cft dlen (n + 2) [] (0xFF :: b :: (naiveGroups 7 bs ++ rest)) out = _
    rw [refLoop_command, commandBits_ones]
    exact refLoop_group_literal hd fun hbs hlen => ih hbs hlen (by omega)
  | case3 left b bs ih =>
    simp only [naiveGroups, List.length_cons] at hn
    obtain ⟨n, rfl⟩ := Nat.exists_eq_add_of_le' (show 1 ≤ n by omega)
    exact refLoop_group_literal hd fun hbs hlen => ih hbs hlen (by omega)

/-- The reference algorithm gives back the bytes of a naive payload under the lengths of its header, whatever follows it
(42_decode_loop.md R172, 43_host_frontend.md R206). -/
theorem refRun_naiveGroups (cft : FlagTable) {bytes : List Byte} (hne : bytes ≠ []) (hlen : Nat) (rest : List Byte) :
    refRun cft bytes.length (hlen + (naiveGroups 0 bytes).length) hlen (naiveGroups 0 bytes ++ rest) = .ok bytes := by
  have hloop : refLoop cft bytes.length ((naiveGroups 0 bytes ++ rest).length + 1) [] (naiveGroups 0 bytes ++ rest) [] =
      .ok (bytes, rest) :=
    refLoop_naiveGroups (left := 0) (out := []) cft rest hne (Nat.zero_add _).symm (by rw [List.length_append]; omega)
  rw [refRun_eq_refVerdict, hloop]
  exact if_pos (by simp [Nat.add_comm])

/-! ## The round trip -/

/-- The front-end's answer is the run's result (43_host_frontend.md R193, 42_decode_loop.md R172). -/
theorem answer_of_runResult {s : State} {out : List Byte} (h : runResult s = .ok out) : answer s = .ok out := by
  unfold runResult at h
  unfold answer
  split_ifs at h ⊢
  rw [Except.ok.inj h]

/-- What the engine makes of a loaded header and stream is what the reference algorithm makes of them
(42_decode_loop.md R172). -/
theorem runAndAnswer_loaded {h : Header} {stream out : List Byte} (s : State)
    (href : refRun h.cft h.dlen.toNat h.clen.toNat h.hlen.toNat stream = .ok out) :
    ∃ t, runAndAnswer (s.loaded h stream) = (t, .ok out) :=
  have hrun : runResult (runToRest (stepBound h.dlen) (s.loaded h stream)) = .ok out :=
    (runComputesReferenceAlgorithm (s.loaded h stream) stream).trans href
  ⟨_, Prod.ext rfl (answer_of_runResult hrun)⟩

/-- A header that is read is loaded and run (43_host_frontend.md R193). -/
theorem decompressWith_of_parseHeader {F : List Byte} {h : Header} {s : State} (w : InWindow)
    (hr : atRest s.st = true) (hh : parseHeader F = .ok h) :
    decompressWith w F s = .next (runAndAnswer (s.loaded h (payload w F h))) := by
  simp only [decompressWith, hh]
  exact afterOps_next (hostSteps_loadOps hr h _) _

/-- Settles O55: the front-end reads back the lengths the encoder wrote, and the engine computes the reference algorithm,
which gives the literals back. -/
theorem naiveContainerRoundTrips : Obligations.NaiveContainerRoundTrips := by
  intro w bytes s hr hne hbound
  obtain ⟨h, rest, hparse, hhlen, hclen, hdlen, hpayload⟩ := parseHeader_compressNaive w hbound
  have href : refRun h.cft h.dlen.toNat h.clen.toNat h.hlen.toNat (naiveGroups 0 bytes ++ rest) = .ok bytes := by
    rw [hhlen, hclen, hdlen]
    exact refRun_naiveGroups h.cft hne 20 rest
  obtain ⟨t, hrun⟩ := runAndAnswer_loaded s href
  exact ⟨t, by rw [decompressWith_of_parseHeader w hr hparse, hpayload, hrun]⟩

end Sys2Proof.Machine
end

section
/-! Faults of 60_exceptions.md: fault entry (R216), missing bytes (R212, R217), and how each command can fail (R218, R220). -/

namespace Sys2Proof.Machine

/-! ## Fault entry and missing bytes -/

/-- Settles O14: fault entry is that record update. -/
theorem raiseWritesErrAndSt : Obligations.RaiseWritesErrAndSt := fun _ _ => rfl

/-- Every command begins with a read, so it fails where the stream has ended (60_exceptions.md R212). -/
theorem exec_of_noByte {s : State} (hl : s.ilen ≤ s.ipos) (i : Instr) : exec i s = .next (s.raise .ioError) := by
  cases i using casesFormat with
  | cmd c => exact congrArg Host.Outcome.next (State.readThen_of_ge hl _)
  | lit d => exact congrArg Host.Outcome.next (State.readThen_of_ge hl _)
  | nyb j h l => rw [exec_nybbleInstr, State.nybble, State.readThen_of_ge hl]
  | copy h l o => exact congrArg Host.Outcome.next (State.readThen_of_ge hl _)

/-- A `COPY` without its offset byte fails at its second read (60_exceptions.md R217). -/
theorem exec_copy_short {s : State} (hl : s.ilen = s.ipos + 1) (h l : Nibble) (o : Byte) :
    exec (.copy h l o) s = .next ((s.advance 1).raise .ioError) :=
  congrArg Host.Outcome.next (State.readThen_readThen_short hl _)

/-- Settles O23: the first read fails, or the second read of `COPY`. -/
theorem missingBytesRaiseIOError : Obligations.MissingBytesRaiseIOError :=
  ⟨fun i _ hl => exec_of_noByte hl i, fun h l o _ hl => exec_copy_short hl h l o⟩

/-- Settles O32: the fetch finds no byte, or the lone mode byte of a `COPY`. -/
theorem stepOnMissingBytesRaisesIOError : Obligations.StepOnMissingBytesRaisesIOError := by
  refine fun s slot hslot => ⟨step_of_noByte (State.running_of_slot hslot), ?_⟩
  rintro rfl hl hf
  have hbytes : s.fetchBytes = [s.inp.read s.ipos] := by
    rw [State.fetchBytes_eq, if_neg (by omega), if_pos (by omega)]
  exact step_of_decode_error hslot (by rw [hbytes, decode_mode_short hf])

/-! ## Appending never fails -/

/-- The engine has not failed. -/
abbrev State.unfailed (s : State) : Prop := s.st ≠ .failed

theorem State.unfailed.nextBit {s : State} (h : s.unfailed) : s.nextBit.unfailed := by
  rw [State.unfailed, State.nextBit_st]
  split
  · exact h
  · simp

/-- The end of a command that has appended is no failure (42_decode_loop.md R163, R164). -/
theorem State.unfailed.settle {s : State} (h : s.unfailed) : s.settle.unfailed := by
  unfold State.settle
  split
  · simp
  · exact h.nextBit

/-- A nybble-pattern command whose pattern answers a pair does not fail once its byte was read
(40_dispatch_nybble_pattern.md R136). -/
theorem State.unfailed.emit_emit {s : State} (h : s.unfailed) (b c : Byte) :
    ((s.emit b).andThen (State.emit c)).finish.unfailed := by
  rw [State.emit_eq]
  split
  · simp
  · rw [Progress.andThen_running, State.emit_finish]
    exact State.unfailed.settle h

/-! ## How a copy loop fails -/

/-- A copy whose source byte exists never fails: source and end of `OUT` move on together (41_backref_copy.md R144). -/
theorem State.copyLoop_unfailed (n : Nat) {s : State} (h : s.unfailed) (hc : s.canAppend) {a : Nat}
    (ha : a < s.olen.toNat) : (s.copyLoop n a).finish.unfailed := by
  induction n generalizing s a with
  | zero => exact h.nextBit
  | succ n ih =>
    rw [State.copyLoop_succ (State.memRead_of_lt ha), State.emit_eq]
    split
    · simp
    · have hl := State.canAppend_succ hc
      exact ih (s := s.append _) (a := a + 1) h (State.canAppend_append _ ‹_›) (by rw [State.append_olen]; omega)

/-- The range check is the one fault of a copy loop (41_backref_copy.md R143). -/
theorem State.copyLoop_err (n : Nat) {a : Int} {s : State} (h : s.unfailed)
    (hf : (s.copyLoop n a).finish.st = .failed) : (s.copyLoop n a).finish.err = .backRefOutOfRange := by
  induction n generalizing s a with
  | zero => exact absurd hf h.nextBit
  | succ n ih =>
    cases hm : s.memRead a with
    | none => rw [State.copyLoop_out hm]; rfl
    | some b =>
      rw [State.copyLoop_succ hm, State.emit_eq] at hf ⊢
      split at hf
      · simp at hf
      · rw [if_neg ‹_›]
        exact ih h hf

/-! ## How each command fails -/

/-- `CMD` latches its byte and goes on, whatever state it runs in (42_decode_loop.md R161). -/
theorem exec_cmd_failed {s t : State} (ht : t.st = .failed) {c : Byte} (he : exec (.cmd c) s = .next t) :
    t = s.raise .ioError := by
  by_cases hl : s.ipos < s.ilen
  · cases (exec_cmd_of_lt hl c).symm.trans he
    simp at ht
  · cases (exec_of_noByte (Nat.not_lt.mp hl) _).symm.trans he
    rfl

section
variable {s t : State} (hs : s.unfailed) (ht : t.st = .failed)
include hs ht

theorem exec_lit_failed {d : Byte} (he : exec (.lit d) s = .next t) : t = s.raise .ioError := by
  by_cases hl : s.ipos < s.ilen
  · cases (exec_lit_of_lt hl d).symm.trans he
    exact absurd ht (State.unfailed.settle hs)
  · cases (exec_of_noByte (Nat.not_lt.mp hl) _).symm.trans he
    rfl

/-- A nybble-pattern command fails for want of its byte, or on an open pair (40_dispatch_nybble_pattern.md R124, R136). -/
theorem exec_nybbleInstr_failed {j : PatternIndex} {h l : Nibble} (he : exec (nybbleInstr j h l) s = .next t) :
    t = s.raise .ioError ∨ (t = (s.advance 1).raise .nybbleRange ∧ (j, l) ∈ openPairs) := by
  by_cases hl : s.ipos < s.ilen
  · cases hp : pattern j l with
    | none =>
      cases (exec_nybbleInstr_fault hl h hp).symm.trans he
      refine .inr ⟨rfl, ?_⟩
      by_contra hopen
      rw [pattern_eq_closedPair hopen] at hp
      cases hp
    | some p =>
      rw [exec_nybbleInstr, State.nybble, State.readThen_of_lt hl, hp] at he
      cases he
      exact absurd ht (State.unfailed.emit_emit (s := s.advance 1) hs p.1 p.2)
  · cases (exec_of_noByte (Nat.not_lt.mp hl) _).symm.trans he
    exact .inl rfl

/-- `NYB0` has no open pair (40_dispatch_nybble_pattern.md R126). -/
theorem exec_nyb0_failed {h l : Nibble} (he : exec (.nyb0 h l) s = .next t) : t = s.raise .ioError :=
  (exec_nybbleInstr_failed (j := 0) hs ht he).resolve_right fun ⟨_, hopen⟩ => by simp [openPairs] at hopen

/-- A `COPY` fails for want of one of its bytes, or out of range; within a run, where `OLEN` does not wrap, the latter
before it has appended anything (60_exceptions.md R214, R217). -/
theorem exec_copy_failed {h l : Nibble} {o : Byte} (he : exec (.copy h l o) s = .next t) :
    t = s.raise .ioError ∨ t = (s.advance 1).raise .ioError ∨
      (t.err = .backRefOutOfRange ∧ (s.canAppend → t = (s.advance 2).raise .backRefOutOfRange)) := by
  by_cases hl : s.ilen ≤ s.ipos
  · cases (exec_of_noByte hl _).symm.trans he
    exact .inl rfl
  by_cases hshort : s.ilen = s.ipos + 1
  · cases (exec_copy_short hshort h l o).symm.trans he
    exact .inr (.inl rfl)
  have hboth : s.ipos + 2 ≤ s.ilen := by omega
  cases (exec_copy_of_le hboth h l o).symm.trans he
  refine .inr (.inr ⟨State.copyLoop_err _ hs ht, fun hc => ?_⟩)
  by_cases hd : copyDistance l o ≤ s.olen.toNat
  · have hpos := copyDistance_pos l o
    rw [State.copySource_of_le hd] at ht
    exact absurd ht (State.copyLoop_unfailed (s := s.advance 2) _ hs hc (by rw [State.advance_olen]; omega))
  · rw [copyDistance_eq, Nat.not_le] at hd
    have hraise := copyBeforeStartRaises h l o s hboth hd
    exact Host.Outcome.next.inj ((exec_copy_of_le hboth h l o).symm.trans hraise)

/-- Within a run a command that fails has read some of its bytes and then taken a fault, and done nothing else
(60_exceptions.md R216, R217). -/
theorem exec_failed_eq {i : Instr} (hc : s.canAppend) (he : exec i s = .next t) : ∃ n f, t = (s.advance n).raise f := by
  cases i using casesFormat with
  | cmd c => exact ⟨0, _, exec_cmd_failed ht he⟩
  | lit d => exact ⟨0, _, exec_lit_failed hs ht he⟩
  | nyb j h l =>
    rcases exec_nybbleInstr_failed hs ht he with heq | ⟨heq, _⟩
    · exact ⟨0, _, heq⟩
    · exact ⟨1, _, heq⟩
  | copy h l o =>
    rcases exec_copy_failed hs ht he with heq | heq | ⟨_, heq⟩
    · exact ⟨0, _, heq⟩
    · exact ⟨1, _, heq⟩
    · exact ⟨2, _, heq hc⟩

end

/-! ## The two statements about failing commands -/

/-- Settles O28: neither a read nor taking a fault writes `OLEN`, `OUT`, `CMD` or `K`. -/
theorem failingCommandAppendsNothing : Obligations.FailingCommandAppendsNothing := by
  intro i s t hc hs he ht
  obtain ⟨n, f, rfl⟩ := exec_failed_eq hs ht hc he
  exact ⟨rfl, rfl, rfl, rfl⟩

/-- The low nibble of an open pair: 15 where the index increments, 0 where it decrements (40_dispatch_nybble_pattern.md
R124). -/
theorem eq_of_mem_openPairs {j : PatternIndex} {l : Nibble} (h : (j, l) ∈ openPairs) :
    l = if some j ∈ [some 1, some 6, some 7, some 8] then 15 else 0 := by
  revert j l; decide

/-- The final check fails with one code only (60_exceptions.md R213). -/
theorem State.finalCheck_err {s : State} (h : s.finalCheck.st = .failed) :
    s.finalCheck.err = .invalidDecompressedLength := by
  rw [State.finalCheck_eq] at h ⊢
  split at h
  · simp at h
  · rw [if_neg ‹_›]; rfl

/-- Settles O29: one row of R220 for each clause. -/
theorem faultsOfEachCommand : Obligations.FaultsOfEachCommand := by
  refine fun s t hs ht => ⟨fun c he => ?_, fun d he => ?_, fun h l he => ?_, fun h l i hi he => ?_, fun h l o he => ?_,
    fun hst he => ?_⟩
  · rw [exec_cmd_failed ht he]; rfl
  · rw [exec_lit_failed hs ht he]; rfl
  · rw [exec_nyb0_failed hs ht he]; rfl
  · have hi' : i ∈ [(1 : PatternIndex), 2, 3, 4, 5, 6, 7, 8].map fun j => nybbleInstr j h l := hi
    obtain ⟨j, _, rfl⟩ := List.mem_map.mp hi'
    rcases exec_nybbleInstr_failed hs ht he with rfl | ⟨rfl, hopen⟩
    · exact .inl rfl
    · rw [patternIndex_nybbleInstr]
      exact .inr ⟨rfl, eq_of_mem_openPairs hopen⟩
  · rcases exec_copy_failed hs ht he with rfl | rfl | ⟨herr, _⟩
    · exact .inl rfl
    · exact .inl rfl
    · exact .inr herr
  · cases (step_done hst).symm.trans he
    exact State.finalCheck_err ht

end Sys2Proof.Machine
end

section
/-! START and the host during a run (70_reset_and_hazards.md): when START begins a run and when it is refused (R253, R254),
and that every host operation but hardware reset, and every host read, is refused while a run is in progress (R262; log 13). -/

namespace Sys2Proof.Machine

/-! ## START -/

/-- START at rest turns on the marks of written registers alone (70_reset_and_hazards.md R253, R254). -/
theorem start_atRest {s : State} (h : atRest s.st = true) :
    hostWrite .ctrl 1 s = if s.written.all then .next s.start else .refused .startUnwritten := by
  rw [hostWrite_atRest h, writeAtRest_ctrl_odd rfl]
  exact if_neg (by simp [h])

/-- One missing mark leaves the configuration incomplete (70_reset_and_hazards.md R254). -/
theorem Written.all_eq_false {w : Written}
    (h : w.dlen = false ∨ w.clen = false ∨ w.hlen = false ∨ ∃ i : PatternIndex, w.cft[i] = false) : w.all = false := by
  refine Bool.eq_false_iff.mpr fun hall => ?_
  obtain ⟨hcft, hdlen, hclen, hhlen⟩ := w.all_iff.mp hall
  rcases h with h | h | h | ⟨i, h⟩
  · exact Bool.eq_false_iff.mp h hdlen
  · exact Bool.eq_false_iff.mp h hclen
  · exact Bool.eq_false_iff.mp h hhlen
  · exact Bool.eq_false_iff.mp h (hcft i)

/-- Settles O45: with every mark set, START at rest is the started run. -/
theorem startBeginsARun : Obligations.StartBeginsARun :=
  fun _ hr hw => (start_atRest hr).trans (if_pos hw)

/-- Settles O46: a missing mark leaves only the refusing branch of START. -/
theorem startNeedsEveryRegister : Obligations.StartNeedsEveryRegister := by
  intro s hr hmissing
  rw [start_atRest hr, Written.all_eq_false hmissing]
  rfl

/-! ## The host during a run -/

/-- A run in progress has not succeeded (42_decode_loop.md R160). -/
theorem ne_success_duringRun {st : EngineState} (h : atRest st = false) : st ≠ .success := by
  rintro rfl; cases h

/-- A run in progress has not failed (42_decode_loop.md R160). -/
theorem ne_failed_duringRun {st : EngineState} (h : atRest st = false) : st ≠ .failed := by
  rintro rfl; cases h

/-- The host's interface lists no register for reading during a run (43_host_frontend.md R190). -/
theorem hostMayRead_duringRun {st : EngineState} (h : atRest st = false) (r : CReg) : hostMayRead r st = false := by
  cases r
  case status => exact h
  case err => exact h
  case olen => simp [hostMayRead, ne_success_duringRun h, ne_failed_duringRun h]
  case ipos => simp [hostMayRead, ne_failed_duringRun h]
  all_goals rfl

section
variable {s : State} (h : atRest s.st = false)
include h

/-- No stream is supplied during a run (43_host_frontend.md R190). -/
theorem hostSupply_duringRun (bytes : List Byte) : hostSupply bytes s = .refused .hostDuringRun :=
  if_neg (by simp [h])

/-- Of the host's operations only hardware reset is taken during a run (70_reset_and_hazards.md R250, R262). -/
theorem hostStep_duringRun {op : HostOp} (hop : op ≠ .hardwareReset) : hostStep op s = .refused .hostDuringRun := by
  cases op with
  | write r v => exact hostWrite_duringRun h r v
  | supply bytes => exact hostSupply_duringRun h bytes
  | hardwareReset => exact absurd rfl hop

/-- The register map refuses every read during a run (70_reset_and_hazards.md R262; log 13). -/
theorem readRegister_duringRun (r : CReg) : readRegister r s = .refused .hostDuringRun := if_pos (by simp [h])

/-- The host's interface refuses every register read during a run (70_reset_and_hazards.md R262; log 13). -/
theorem hostReadReg_duringRun (r : CReg) : hostReadReg r s = .refused .hostDuringRun := by
  simp [hostReadReg, hostMayRead_duringRun h r, h]

/-- No byte of `OUT` is read during a run (20_memory.md R76). -/
theorem hostReadOut_duringRun (a : Nat) : hostReadOut a s = .refused .hostDuringRun :=
  (if_neg (ne_success_duringRun h)).trans (if_neg (by simp [h]))

/-- There is no result during a run (20_memory.md R76). -/
theorem hostResult_duringRun : hostResult s = .refused .hostDuringRun :=
  (if_neg (ne_success_duringRun h)).trans (if_neg (by simp [h]))

end

/-- Settles O49: one refusal for each operation and each read; hardware reset answers in every state. -/
theorem hostHeldOffDuringRun : Obligations.HostHeldOffDuringRun := fun s h =>
  ⟨fun _ hop => hostStep_duringRun h hop, ⟨hardwareReset s, rfl⟩, readRegister_duringRun h, hostReadReg_duringRun h,
    hostReadOut_duringRun h, hostResult_duringRun h⟩

end Sys2Proof.Machine
end
